-- ==== Sys2Proof/Word.lean ====
section
/-!
DEFINITION. The word types of the machine: a byte (spec/10_state.md R20), a 16-bit word (R24, R25, R27) and the 12-bit
address immediate NNN (spec/30_encoding.md R82). All are unsigned (spec/00_scope.md R9).
-/
namespace Sys2Proof

/-- 8 bits: a general register, the delay timer, a memory byte, the immediate NN. -/
abbrev Byte := BitVec 8

/-- 16 bits: the opcode, `pc`, `I`, a stack entry. -/
abbrev Word := BitVec 16

/-- 12 bits: the address immediate NNN. -/
abbrev Addr := BitVec 12

end Sys2Proof
end

