-- ==== Sys2Proof/Decode.lean ====
section
/-!
DEFINITION. The decoder and the encoder, from spec/30_encoding.md: the operand fields (R82), the opcode map (R86), the decoder
"for each row, op & mask == match" (R85), the byte order of the opcode (R81), and the encoder that puts the fields back.
-/
namespace Sys2Proof

/-! ## Operand fields (R82) -/

/-- `X = op[11:8]`. -/
def fieldX (op : Word) : Reg := ⟨op.toNat / 256 % 16, Nat.mod_lt _ (by decide)⟩

/-- `Y = op[7:4]`. -/
def fieldY (op : Word) : Reg := ⟨op.toNat / 16 % 16, Nat.mod_lt _ (by decide)⟩

/-- `N = op[3:0]`, a count. -/
def fieldN (op : Word) : Nat := op.toNat % 16

/-- `NN = op[7:0]`. -/
def fieldNN (op : Word) : Byte := op.setWidth 8

/-- `NNN = op[11:0]`. -/
def fieldNNN (op : Word) : Addr := op.setWidth 12

/-! ## The opcode map (R86) -/

/-- One row of the opcode map: the fixed bits, their values, and the instruction a fitting opcode stands for. -/
structure OpRow where
  mask : Word
  pattern : Word
  instr : Word → Instr

/-- `op & mask == match`. -/
def OpRow.fits (r : OpRow) (op : Word) : Bool := op &&& r.mask == r.pattern

/-- Families 0 to 7. -/
def opRowsLow : List OpRow := [
  ⟨0xFFFF, 0x00E0, fun _ => .cls⟩,
  ⟨0xFFFF, 0x00EE, fun _ => .ret⟩,
  ⟨0xF000, 0x1000, fun op => .jp (fieldNNN op)⟩,
  ⟨0xF000, 0x2000, fun op => .call (fieldNNN op)⟩,
  ⟨0xF000, 0x3000, fun op => .seImm (fieldX op) (fieldNN op)⟩,
  ⟨0xF000, 0x4000, fun op => .sneImm (fieldX op) (fieldNN op)⟩,
  ⟨0xF00F, 0x5000, fun op => .seReg (fieldX op) (fieldY op)⟩,
  ⟨0xF000, 0x6000, fun op => .ldImm (fieldX op) (fieldNN op)⟩,
  ⟨0xF000, 0x7000, fun op => .addImm (fieldX op) (fieldNN op)⟩]

/-- Family 8, by the low nibble (R89, D30). -/
def opRowsAlu : List OpRow := [
  ⟨0xF00F, 0x8000, fun op => .ldReg (fieldX op) (fieldY op)⟩,
  ⟨0xF00F, 0x8001, fun op => .orReg (fieldX op) (fieldY op)⟩,
  ⟨0xF00F, 0x8002, fun op => .andReg (fieldX op) (fieldY op)⟩,
  ⟨0xF00F, 0x8003, fun op => .xorReg (fieldX op) (fieldY op)⟩,
  ⟨0xF00F, 0x8004, fun op => .addReg (fieldX op) (fieldY op)⟩,
  ⟨0xF00F, 0x8005, fun op => .sub (fieldX op) (fieldY op)⟩,
  ⟨0xF00F, 0x8006, fun op => .shr (fieldX op) (fieldY op)⟩,
  ⟨0xF00F, 0x8007, fun op => .subn (fieldX op) (fieldY op)⟩,
  ⟨0xF00F, 0x800E, fun op => .shl (fieldX op) (fieldY op)⟩]

/-- Families 9 to E. -/
def opRowsHigh : List OpRow := [
  ⟨0xF00F, 0x9000, fun op => .sneReg (fieldX op) (fieldY op)⟩,
  ⟨0xF000, 0xA000, fun op => .ldI (fieldNNN op)⟩,
  ⟨0xF000, 0xB000, fun op => .jpV0 (fieldNNN op)⟩,
  ⟨0xF000, 0xC000, fun op => .rnd (fieldX op) (fieldNN op)⟩,
  ⟨0xF000, 0xD000, fun op => .drw (fieldX op) (fieldY op) (fieldN op)⟩,
  ⟨0xF0FF, 0xE09E, fun op => .skp (fieldX op)⟩,
  ⟨0xF0FF, 0xE0A1, fun op => .sknp (fieldX op)⟩]

/-- Family F, by the low byte (R91). -/
def opRowsF : List OpRow := [
  ⟨0xF0FF, 0xF007, fun op => .ldVxDt (fieldX op)⟩,
  ⟨0xF0FF, 0xF00A, fun op => .ldVxK (fieldX op)⟩,
  ⟨0xF0FF, 0xF015, fun op => .ldDtVx (fieldX op)⟩,
  ⟨0xF0FF, 0xF018, fun op => .ldStVx (fieldX op)⟩,
  ⟨0xF0FF, 0xF01E, fun op => .addI (fieldX op)⟩,
  ⟨0xF0FF, 0xF029, fun op => .ldF (fieldX op)⟩,
  ⟨0xF0FF, 0xF033, fun op => .ldB (fieldX op)⟩,
  ⟨0xF0FF, 0xF055, fun op => .storeRegs (fieldX op)⟩,
  ⟨0xF0FF, 0xF065, fun op => .loadRegs (fieldX op)⟩]

/-- The complete opcode map, 34 rows in the order of R86. -/
def opRows : List OpRow := opRowsLow ++ (opRowsAlu ++ (opRowsHigh ++ opRowsF))

/-! ## The decoder (R85) -/

/-- Why bytes are no instruction. -/
inductive Reject where
  /-- The word matches no row of the opcode map (R93). -/
  | invalidOpcode (op : Word)
  /-- Fewer than two bytes: every instruction is two (R80). -/
  | truncated
  deriving DecidableEq, Repr

/-- The instruction a 16-bit opcode stands for; a pure function of the opcode (R85, spec/40_step_cycle.md R113). -/
def decode (op : Word) : Except Reject Instr :=
  match opRows.find? (·.fits op) with
  | some r => .ok (r.instr op)
  | none => .error (.invalidOpcode op)

/-- The opcode of two bytes, the first being the one at the lower address: `op[15:8]` is the first (R81). -/
def opcodeOf (hi lo : Byte) : Word := hi ++ lo

/-- Decode the first instruction of a byte sequence and give the rest; total on any bytes. -/
def decodeBytes : List Byte → Except Reject (Instr × List Byte)
  | hi :: lo :: rest =>
    match decode (opcodeOf hi lo) with
    | .ok i => .ok (i, rest)
    | .error e => .error e
  | _ => .error .truncated

/-- The two bytes of an opcode in memory order, the high byte first (R81, spec/20_memory.md R57). -/
def opcodeBytes (op : Word) : List Byte := [(op >>> 8).setWidth 8, op.setWidth 8]

/-- The opcode whose bits are `w`, numbered as spec/opcode_table.json numbers them, bits from `nbits` on being 0. -/
def tableWord (nbits w : Nat) : Word := BitVec.ofNat 16 (w % 2 ^ nbits)

/-- The instruction the decoder reads from an opcode-table word: its bytes as the hardware stores them, given to the decoder. -/
def decodeTableWord (nbits w : Nat) : Option Instr :=
  match decodeBytes (opcodeBytes (tableWord nbits w)) with
  | .ok (i, _) => some i
  | .error _ => none

/-! ## The encoder -/

/-- Format A: family and NNN (R83). -/
def wordA (family : BitVec 4) (nnn : Addr) : Word := family ++ nnn

/-- Format XK: family, X and NN (R83). -/
def wordXK (family : BitVec 4) (x : Reg) (nn : Byte) : Word := family ++ BitVec.ofFin (w := 4) x ++ nn

/-- Formats XY and XYN: family, X, Y and the low nibble (R83). -/
def wordXY (family : BitVec 4) (x y : Reg) (n : BitVec 4) : Word := family ++ BitVec.ofFin (w := 4) x ++ BitVec.ofFin (w := 4) y ++ n

/-- Format XO: family, X and a fixed low byte (R83). -/
def wordXO (family : BitVec 4) (x : Reg) (low : Byte) : Word := wordXK family x low

/-- The opcode of an instruction (R83, R86). -/
def encode : Instr → Word
  | .cls => 0x00E0
  | .ret => 0x00EE
  | .jp nnn => wordA 0x1 nnn
  | .call nnn => wordA 0x2 nnn
  | .seImm x nn => wordXK 0x3 x nn
  | .sneImm x nn => wordXK 0x4 x nn
  | .seReg x y => wordXY 0x5 x y 0x0
  | .ldImm x nn => wordXK 0x6 x nn
  | .addImm x nn => wordXK 0x7 x nn
  | .ldReg x y => wordXY 0x8 x y 0x0
  | .orReg x y => wordXY 0x8 x y 0x1
  | .andReg x y => wordXY 0x8 x y 0x2
  | .xorReg x y => wordXY 0x8 x y 0x3
  | .addReg x y => wordXY 0x8 x y 0x4
  | .sub x y => wordXY 0x8 x y 0x5
  | .shr x y => wordXY 0x8 x y 0x6
  | .subn x y => wordXY 0x8 x y 0x7
  | .shl x y => wordXY 0x8 x y 0xE
  | .sneReg x y => wordXY 0x9 x y 0x0
  | .ldI nnn => wordA 0xA nnn
  | .jpV0 nnn => wordA 0xB nnn
  | .rnd x nn => wordXK 0xC x nn
  | .drw x y n => wordXY 0xD x y (BitVec.ofNat 4 n)
  | .skp x => wordXO 0xE x 0x9E
  | .sknp x => wordXO 0xE x 0xA1
  | .ldVxDt x => wordXO 0xF x 0x07
  | .ldVxK x => wordXO 0xF x 0x0A
  | .ldDtVx x => wordXO 0xF x 0x15
  | .ldStVx x => wordXO 0xF x 0x18
  | .addI x => wordXO 0xF x 0x1E
  | .ldF x => wordXO 0xF x 0x29
  | .ldB x => wordXO 0xF x 0x33
  | .storeRegs x => wordXO 0xF x 0x55
  | .loadRegs x => wordXO 0xF x 0x65

end Sys2Proof
end

