-- ==== Sys2Proof/Config.lean ====
section
/-!
DEFINITION. What the spec leaves to an implementation (spec/00_scope.md R7) and the one free value (spec/44_index_random.md
R191). The spec's defaults stand in Sys2Proof/Machine/Params.lean.
-/
namespace Sys2Proof

/-- The numbers a host sees for the status of a step and for the result of a load: the parameter "status codes" (spec/00_scope.md R7,
spec/60_exceptions.md R291, D17). -/
structure StatusCodes where
  ok : Nat
  invalidOpcode : Nat
  stackOverflow : Nat
  stackUnderflow : Nat
  programCounterOutOfBounds : Nat
  loadSuccess : Nat
  ioError : Nat
  sizeError : Nat
  deriving DecidableEq, Repr

/-- The named parameters of spec/00_scope.md R7 that are constants of a machine. A state carries them (log 1), so that a step takes them as
an input and a statement about every state is one about every choice of them. -/
structure Config where
  /-- FONT_BASE, the address of glyph 0, with `FONT_BASE + 79 <= 0x1FF` (spec/10_state.md R37). -/
  fontBase : Fin 0x1B1
  /-- FONT_TABLE, 16 glyphs of 5 bytes in address order (spec/10_state.md R37). -/
  fontTable : Vector Byte 80
  /-- STACK_POP_DEFAULT, what a pop of the empty stack returns (spec/41_control_flow.md R136). -/
  stackPopDefault : Word
  /-- The status codes (spec/60_exceptions.md R291). -/
  codes : StatusCodes
  deriving DecidableEq, Repr

/-- The random byte of the `n`-th executed `Cxnn`: a free input of the step (spec/44_index_random.md R191), so it has no body and
every statement about it holds for every sequence of bytes. DESIGN CHOICE (log 3). -/
opaque Config.randomByte : Nat → Byte

end Sys2Proof
end

