-- ==== Sys2Proof/Machine/Params.lean ====
section
/-!
DEFINITION. The defaults the spec decides for its parameters (spec/00_scope.md R7), which `State.reset` starts with. DESIGN CHOICE (log 1).
-/
namespace Sys2Proof.Machine

/-- Glyphs 0 to 7 of the default FONT_TABLE (spec/10_state.md R37, D2). -/
def fontLow : Vector Byte 40 :=
  #v[0xF0, 0x90, 0x90, 0x90, 0xF0, 0x20, 0x60, 0x20, 0x20, 0x70, 0xF0, 0x10, 0xF0, 0x80, 0xF0, 0xF0, 0x10, 0xF0, 0x10, 0xF0,
     0x90, 0x90, 0xF0, 0x10, 0x10, 0xF0, 0x80, 0xF0, 0x10, 0xF0, 0xF0, 0x80, 0xF0, 0x90, 0xF0, 0xF0, 0x10, 0x20, 0x40, 0x40]

/-- Glyphs 8 to F of the default FONT_TABLE (spec/10_state.md R37, D2). -/
def fontHigh : Vector Byte 40 :=
  #v[0xF0, 0x90, 0xF0, 0x90, 0xF0, 0xF0, 0x90, 0xF0, 0x10, 0xF0, 0xF0, 0x90, 0xF0, 0x90, 0x90, 0xE0, 0x90, 0xE0, 0x90, 0xE0,
     0xF0, 0x80, 0x80, 0x80, 0xF0, 0xE0, 0x90, 0x90, 0x90, 0xE0, 0xF0, 0x80, 0xF0, 0x80, 0xF0, 0xF0, 0x80, 0xF0, 0x80, 0x80]

/-- The default codes (spec/60_exceptions.md R291, D17). -/
def defaultCodes : StatusCodes where
  ok := 0
  invalidOpcode := 1
  stackOverflow := 2
  stackUnderflow := 3
  programCounterOutOfBounds := 4
  loadSuccess := 0
  ioError := 5
  sizeError := 6

/-- FONT_BASE = 0x050 (D1), FONT_TABLE the customary font (D2), STACK_POP_DEFAULT = 0x0000 (D16), the codes of R291 (D17). -/
def defaultConfig : Config where
  fontBase := 0x050
  fontTable := fontLow ++ fontHigh
  stackPopDefault := 0x0000
  codes := defaultCodes

end Sys2Proof.Machine
end

