-- ==== Sys2Proof/Machine/State.lean ====
section
/-!
DEFINITION. The state of the machine as plain data (spec/10_state.md), the status a step reports, and the state after reset.
-/
namespace Sys2Proof.Machine

/-- The conditions a step can report (spec/60_exceptions.md R290). All are non-fatal: the step that reports one ends in a state
its own rule gives and stepping goes on (R293). -/
inductive Condition where
  /-- The fetched word is no instruction (R294). -/
  | invalidOpcode
  /-- `2nnn` with 16 entries on the stack (R295). -/
  | stackOverflow
  /-- `00EE` with no entry on the stack (R296). -/
  | stackUnderflow
  /-- A step that begins with `pc >= 0x1000` (R297). -/
  | programCounterOutOfBounds
  deriving DecidableEq, Repr

/-- The status value of a step (spec/60_exceptions.md R292): OK unless a condition was raised. -/
inductive Status where
  | ok
  | reported (c : Condition)
  deriving DecidableEq, Repr

/-- The reasons the machine stops with a fault: none. The spec's conditions are all non-fatal and "There are no others: no memory
fault, no alignment fault, no arithmetic fault, no privilege fault" (spec/60_exceptions.md R290), so nothing raises a fault. -/
inductive Fault where
  deriving DecidableEq, Repr

/-- The reasons an instruction has no meaning in the model. -/
inductive Refusal where
  /-- Raised by a refused arm of exec, for an instruction not modelled yet (safe: the model stops). No arm raises it now. -/
  | notModelled (mnemonic : String)
  deriving DecidableEq, Repr

/-- Memory: the bytes that differ from their reset content, by address. Canonical form: addresses strictly rising and below 4096,
no byte equal to what an unlisted address reads as (`Memory.wf` in Sys2Proof/Machine/Ops.lean). -/
abbrev Memory := List Host.Cell

/-- The 64 by 32 grid of cells: 32 rows of 64 columns, `true` for a set pixel (spec/10_state.md R31). -/
abbrev Framebuffer := Vector (Vector Bool 64) 32

/-- The key vector, `true` for a pressed key (spec/10_state.md R32). -/
abbrev Keys := Vector Bool 16

/-- All the state of the machine (spec/10_state.md R20 to R39), and three fields of the model's own, `status`, `draws` and
`config`. -/
structure State where
  /-- V0 to VF (R20). -/
  v : Vector Byte 16
  /-- The index register I (R24). -/
  i : Word
  /-- The program counter (R25). -/
  pc : Word
  /-- The stack pointer, the number of entries in use, 0 to 16 (R28). -/
  sp : Fin 17
  /-- The return stack (R27). -/
  stack : Vector Word 16
  /-- The delay timer DT (R29). -/
  dt : Byte
  /-- The 4096 bytes of memory (R36). -/
  mem : Memory
  /-- The framebuffer (R31). -/
  fb : Framebuffer
  /-- The key state, written by the host only (R32). -/
  key : Keys
  /-- The redraw flag (R33). -/
  redraw : Bool
  /-- The model's own: the status the last step reported, which the spec makes an output of the step and not state
  (spec/60_exceptions.md R292); every step writes it and none reads it. DESIGN CHOICE (log 2). -/
  status : Status
  /-- The model's own: how many random bytes have been used, so that each executed `Cxnn` takes a fresh free byte
  (spec/44_index_random.md R191). DESIGN CHOICE (log 3). -/
  draws : Nat
  /-- The parameters of spec/00_scope.md R7, constants of a machine and not state of it: no operation writes them. They stand here so that the
  step takes them as an input. DESIGN CHOICE (log 1). -/
  config : Config
  deriving DecidableEq, Repr

/-- The state after reset (spec/10_state.md R38, spec/70_reset_and_hazards.md R330, R331). No byte of memory is listed: an unlisted
address reads as its reset content, the font in the font region and 0 elsewhere. -/
def State.reset : State where
  v := Vector.replicate 16 0
  i := 0
  pc := 0x200
  sp := 0
  stack := Vector.replicate 16 0
  dt := 0
  mem := []
  fb := Vector.replicate 32 (Vector.replicate 64 false)
  key := Vector.replicate 16 false
  redraw := false
  status := .ok
  draws := 0
  config := defaultConfig

end Sys2Proof.Machine
end

