-- ==== Sys2Proof/Machine/Ops.lean ====
section
/-!
DEFINITION. The named operations over registers, memory, framebuffer, stack and status, which every meaning is written in, and what
a step does around a meaning: clearing the status, the bounds check, the fetch, an invalid opcode.
-/
namespace Sys2Proof.Machine

/-! ## Memory (spec/20_memory.md) -/

/-- What an address reads as when nothing has written it since reset: the font byte in the font region, 0 elsewhere
(spec/10_state.md R37, R38). -/
def Memory.unlisted (c : Config) (a : Nat) : Byte :=
  if h : c.fontBase.val ≤ a ∧ a < c.fontBase.val + 80 then c.fontTable[a - c.fontBase.val]'(by omega) else 0

/-- The byte at a listed or unlisted address, without the address reduction. -/
def Memory.lookup (m : Memory) (c : Config) (a : Nat) : Byte :=
  match m.find? (fun d => d.1 == a) with
  | some d => d.2
  | none => Memory.unlisted c a

/-- Put a cell into its place by address. -/
def Memory.insert (a : Nat) (b : Byte) : Memory → Memory
  | [] => [(a, b)]
  | c :: cs => if a < c.1 then (a, b) :: c :: cs else c :: Memory.insert a b cs

/-- Set one byte, keeping the canonical form, without the address reduction. -/
def Memory.update (m : Memory) (c : Config) (a : Nat) (b : Byte) : Memory :=
  let rest := m.filter (fun d => d.1 != a)
  if b = Memory.unlisted c a then rest else Memory.insert a b rest

/-- `MemRead(addr, 1)`: the byte at `addr mod 4096` (R52, R55, D3). -/
def Memory.read (m : Memory) (c : Config) (addr : Nat) : Byte := m.lookup c (addr % 4096)

/-- `MemWrite(addr, 1, b)`: sets the byte at `addr mod 4096` and nothing else (R54, R55, D3). -/
def Memory.write (m : Memory) (c : Config) (addr : Nat) (b : Byte) : Memory := m.update c (addr % 4096) b

/-- The canonical form of memory: addresses strictly rising and below 4096, no cell that holds what the address reads as unlisted. -/
def Memory.wf (m : Memory) (c : Config) : Bool :=
  decide (m.Pairwise (fun d e => d.1 < e.1)) && m.all (fun d => decide (d.1 < 4096) && decide (d.2 ≠ Memory.unlisted c d.1))

/-- `MemRead(addr, 1)` on a state. -/
def State.readMem (s : State) (addr : Nat) : Byte := s.mem.read s.config addr

/-- `MemWrite(addr, 1, b)` on a state. -/
def State.writeMem (s : State) (addr : Nat) (b : Byte) : State := { s with mem := s.mem.write s.config addr b }

/-- Writes of consecutive bytes from `addr` on, the first at `addr` (R67). -/
def State.writeBytes (s : State) (addr : Nat) : List Byte → State
  | [] => s
  | b :: bs => (s.writeMem addr b).writeBytes (addr + 1) bs

/-- Reads of `n` consecutive bytes from `addr` on. -/
def State.readBytes (s : State) (addr n : Nat) : List Byte := (List.range n).map (fun k => s.readMem (addr + k))

/-- `MemRead(addr, 2)`: the byte at the lower address is the most significant (R53). -/
def State.readWord (s : State) (addr : Nat) : Word := opcodeOf (s.readMem addr) (s.readMem (addr + 1))

/-! ## Registers (spec/10_state.md R20 to R24) -/

/-- `x[x]`. -/
def State.reg (s : State) (x : Reg) : Byte := s.v[x.val]'x.isLt

/-- `x[x] <- b`. -/
def State.setReg (s : State) (x : Reg) (b : Byte) : State := { s with v := s.v.set x.val b x.isLt }

/-- `I <- w`. -/
def State.setI (s : State) (w : Word) : State := { s with i := w }

/-- `DT <- b`. -/
def State.setDt (s : State) (b : Byte) : State := { s with dt := b }

/-- `pc <- target`. -/
def State.setPc (s : State) (target : Word) : State := { s with pc := target }

/-- `pc <- pc0 + 2` (spec/40_step_cycle.md R114). -/
def State.advance (s : State) : State := s.setPc (s.pc + 2)

/-- A skip: `pc <- pc0 + 4` when the condition holds, else `pc <- pc0 + 2` (spec/42_skips.md R150). -/
def State.skipIf (c : Bool) (s : State) : State := s.setPc (if c then s.pc + 4 else s.pc + 2)

/-! ## Reporting a condition (spec/60_exceptions.md)

The machine's only exception mechanism. There is no trap entry and no return from one: nothing is saved, no mode changes, no vector
is fetched (R301, R302); what happens to `pc` is the raising rule's own matter. -/

/-- `raise C`: sets the status of the current step to `C` and does nothing else (R293). -/
def State.raise (s : State) (c : Condition) : State := { s with status := .reported c }

/-! ## The return stack (spec/41_control_flow.md R135, R136) -/

/-- `Push(w)`: on a full stack raises StackOverflow and changes nothing, else writes at `sp` and increments it (R135). -/
def State.push (s : State) (w : Word) : State :=
  if h : s.sp.val < 16 then { s with stack := s.stack.set s.sp.val w h, sp := ⟨s.sp.val + 1, by omega⟩ }
  else s.raise .stackOverflow

/-- `Pop()`: on an empty stack raises StackUnderflow, changes nothing and returns STACK_POP_DEFAULT, else decrements `sp` and
returns the entry there, which is not cleared (R136, D16). -/
def State.pop (s : State) : Word × State :=
  if h : s.sp.val = 0 then (s.config.stackPopDefault, s.raise .stackUnderflow)
  else (s.stack[s.sp.val - 1]'(by omega), { s with sp := ⟨s.sp.val - 1, by omega⟩ })

/-! ## Keys and the random source -/

/-- `key[k] = 1` (spec/10_state.md R32). -/
def State.keyDown (s : State) (k : Fin 16) : Bool := s.key[k.val]'k.isLt

/-- The lowest pressed key, if any (spec/47_misc_fx.md R232). -/
def State.firstKey (s : State) : Option (Fin 16) := (List.finRange 16).find? s.keyDown

/-- The random byte this state's next `Cxnn` uses: a free value (spec/44_index_random.md R191; log 3). -/
def State.nextRandom (s : State) : Byte := Config.randomByte s.draws

/-- One random byte is used up. -/
def State.drawRandom (s : State) : State := { s with draws := s.draws + 1 }

/-! ## The framebuffer (spec/45_draw.md) -/

/-- `fb[row][col]`. -/
def Framebuffer.cell (f : Framebuffer) (row : Fin 32) (col : Fin 64) : Bool := (f[row.val]'row.isLt)[col.val]'col.isLt

/-- `fb[row][col] <- fb[row][col] ^ 1`. -/
def Framebuffer.toggle (f : Framebuffer) (row : Fin 32) (col : Fin 64) : Framebuffer :=
  f.set row.val ((f[row.val]'row.isLt).set col.val (!f.cell row col) col.isLt) row.isLt

/-- All cells 0. -/
def Framebuffer.clear : Framebuffer := Vector.replicate 32 (Vector.replicate 64 false)

/-- One sprite bit at a cell, on a framebuffer and the collision found so far (R202). -/
def drawPixel (p : Framebuffer × Bool) (row : Fin 32) (col : Fin 64) (on : Bool) : Framebuffer × Bool :=
  if on then (p.1.toggle row col, p.2 || p.1.cell row col) else p

/-- One sprite byte at a row, columns `vx` to `vx + 7` modulo 64; bit 7 is the leftmost (R201, D11). -/
def drawRow (p : Framebuffer × Bool) (row : Fin 32) (vx : Nat) (b : Byte) : Framebuffer × Bool :=
  (List.range 8).foldl (fun q c => drawPixel q row (Fin.ofNat 64 (vx + c)) (b.getLsbD (7 - c))) p

/-- The sprite bytes on consecutive rows from `vy` on, modulo 32 (R202). -/
def drawSprite (p : Framebuffer × Bool) (vx vy : Nat) : List Byte → Framebuffer × Bool
  | [] => p
  | b :: bs => drawSprite (drawRow p (Fin.ofNat 32 vy) vx b) vx (vy + 1) bs

/-- `fb[row][col]` of a state. -/
def State.cell (s : State) (row : Fin 32) (col : Fin 64) : Bool := s.fb.cell row col

/-- A new framebuffer, with the redraw flag set (spec/10_state.md R33, D18). -/
def State.paint (s : State) (f : Framebuffer) : State := { s with fb := f, redraw := true }

/-! ## What a step does around a meaning (spec/40_step_cycle.md R111 to R116) -/

/-- The status of a step is OK unless a condition is raised in it (R116). -/
def State.beginStep (s : State) : State := { s with status := .ok }

/-- The bounds check of R111. -/
def State.outOfBounds (s : State) : Bool := decide (0x1000 ≤ s.pc.toNat)

/-- A step that begins out of bounds: the condition is raised and nothing else changes (R111, D4). -/
def State.stepOutOfBounds (s : State) : State := s.raise .programCounterOutOfBounds

/-- The fetched opcode (R112). -/
def State.fetch (s : State) : Word := s.readWord s.pc.toNat

/-- An invalid opcode: the condition is raised and the program counter advances by 2 (R115). -/
def State.stepInvalid (s : State) : State := (s.raise .invalidOpcode).advance

/-- An opcode placed where a step fetches: at `pc` and `pc + 1`. A step fetches only below 0x1000, so a program counter out of bounds is
put to 0x200 first. -/
def State.placeOpcode (s : State) (op : Word) : State :=
  let t := if s.outOfBounds then s.setPc 0x200 else s
  t.writeBytes t.pc.toNat (opcodeBytes op)

end Sys2Proof.Machine
end

