-- ==== Sys2Proof/Machine/Flags.lean ====
section
/-!
DEFINITION. The flag computations, each a Boolean of the operands' old values, and the one order in which a flag and a result are
written (spec/43_load_alu.md R160, R161; spec/47_misc_fx.md R237).
-/
namespace Sys2Proof.Machine

/-- A flag as the byte VF receives: 0x00 or 0x01 (spec/10_state.md R22). -/
def flagByte (f : Bool) : Byte := if f then 1 else 0

/-- The carry of an addition: `a + b > 255` (R168). -/
def carryAdd (a b : Byte) : Bool := decide (255 < a.toNat + b.toNat)

/-- Not-borrow of `a - b`: `a >= b` (R169, R171, D5). -/
def notBorrow (a b : Byte) : Bool := decide (b.toNat ≤ a.toNat)

/-- The bit a right shift moves out, bit 0 (R170). -/
def shiftedOutRight (a : Byte) : Bool := a.getLsbD 0

/-- The bit a left shift moves out, bit 7 (R172). -/
def shiftedOutLeft (a : Byte) : Bool := a.getLsbD 7

/-- The out-of-range flag of the index addition: `I + a > 0xFFF`, on the unwrapped sum (spec/47_misc_fx.md R237). -/
def indexOutOfRange (i : Word) (a : Byte) : Bool := decide (0xFFF < i.toNat + a.toNat)

/-- `x[0xF] <- flag`. -/
def State.setFlag (s : State) (f : Bool) : State := s.setReg .vf (flagByte f)

/-- The flag-first order of R161 (D7): VF receives the flag, then Vx receives the result, computed from the registers as the first
write left them; `op` is the operation on the re-read Vx and Vy. -/
def State.flagThenResult (s : State) (x y : Reg) (f : Bool) (op : Byte → Byte → Byte) : State :=
  let s1 := s.setFlag f
  s1.setReg x (op (s1.reg x) (s1.reg y))

end Sys2Proof.Machine
end

