-- ==== Sys2Proof/Machine/Operands.lean ====
section
/-!
DEFINITION. The operand forms: register contents (`State.reg` in Ops), zero-extended immediates (spec/30_encoding.md R84), the low
nibble of a register, the effective address (spec/47_misc_fx.md R243), the register range V0 to Vx, decimal digits.
-/
namespace Sys2Proof.Machine

/-- `zext_16(NNN)` (spec/30_encoding.md R84). -/
def zextAddr (nnn : Addr) : Word := nnn.setWidth 16

/-- `zext_16` of a register (spec/41_control_flow.md R134, spec/47_misc_fx.md R237). -/
def zextByte (b : Byte) : Word := b.setWidth 16

/-- `x[X][3:0]` (spec/46_keys.md R220, D10; spec/47_misc_fx.md R238). -/
def lowNibble (b : Byte) : Fin 16 := ⟨b.toNat % 16, Nat.mod_lt _ (by decide)⟩

/-- The address of byte `k` of an access through I, before the memory's reduction modulo 4096 (spec/47_misc_fx.md R243). -/
def State.dataAddr (s : State) (k : Nat) : Nat := s.i.toNat + k

/-- Register numbers 0 to `x` in ascending order (spec/47_misc_fx.md R241, R242). -/
def regsUpTo (x : Reg) : List Reg := (List.finRange 16).filter (fun k => decide (k ≤ x))

/-- `I <- (I + X + 1) mod 65536` (spec/47_misc_fx.md R241, R242, D8, D9). -/
def State.bumpI (s : State) (x : Reg) : State := s.setI (s.i + BitVec.ofNat 16 (x.val + 1))

/-- The hundreds, tens and ones digits of a byte (spec/47_misc_fx.md R240). -/
def decimalDigits (b : Byte) : List Byte :=
  [BitVec.ofNat 8 (b.toNat / 100), BitVec.ofNat 8 (b.toNat / 10 % 10), BitVec.ofNat 8 (b.toNat % 10)]

/-- The address of the glyph of a hexadecimal digit (spec/10_state.md R37, spec/47_misc_fx.md R238). -/
def State.glyphAddr (s : State) (g : Fin 16) : Word := BitVec.ofNat 16 (s.config.fontBase.val + 5 * g.val)

end Sys2Proof.Machine
end

