-- ==== Sys2Proof/Machine/Alu.lean ====
section
/-!
DEFINITION. The register load and ALU instructions `6xnn`, `7xnn`, `8xy0` to `8xy7`, `8xyE` (spec/43_load_alu.md).
-/
namespace Sys2Proof.Machine

/-- `6xnn` LD Vx, nn (R162). -/
def execLdImm (x : Reg) (nn : Byte) (s : State) : Host.Outcome State Fault Refusal :=
  .next (s.setReg x nn).advance

/-- `7xnn` ADD Vx, nn (R163): modulo 256, no flag. -/
def execAddImm (x : Reg) (nn : Byte) (s : State) : Host.Outcome State Fault Refusal :=
  .next (s.setReg x (s.reg x + nn)).advance

/-- `8xy0` LD Vx, Vy (R164). -/
def execLdReg (x y : Reg) (s : State) : Host.Outcome State Fault Refusal :=
  .next (s.setReg x (s.reg y)).advance

/-- `8xy1` OR Vx, Vy (R165). -/
def execOrReg (x y : Reg) (s : State) : Host.Outcome State Fault Refusal :=
  .next (s.setReg x (s.reg x ||| s.reg y)).advance

/-- `8xy2` AND Vx, Vy (R166). -/
def execAndReg (x y : Reg) (s : State) : Host.Outcome State Fault Refusal :=
  .next (s.setReg x (s.reg x &&& s.reg y)).advance

/-- `8xy3` XOR Vx, Vy (R167). -/
def execXorReg (x y : Reg) (s : State) : Host.Outcome State Fault Refusal :=
  .next (s.setReg x (s.reg x ^^^ s.reg y)).advance

/-- `8xy4` ADD Vx, Vy (R168): VF the carry of the old values, then Vx the sum of the re-read registers (R161). -/
def execAddReg (x y : Reg) (s : State) : Host.Outcome State Fault Refusal :=
  .next (s.flagThenResult x y (carryAdd (s.reg x) (s.reg y)) (fun a b => a + b)).advance

/-- `8xy5` SUB Vx, Vy (R169): VF the not-borrow of the old values, then Vx - Vy of the re-read registers (R161). -/
def execSub (x y : Reg) (s : State) : Host.Outcome State Fault Refusal :=
  .next (s.flagThenResult x y (notBorrow (s.reg x) (s.reg y)) (fun a b => a - b)).advance

/-- `8xy6` SHR Vx (R170): VF bit 0 of the old Vx, then the re-read Vx shifted right; Vy is not read. -/
def execShr (x y : Reg) (s : State) : Host.Outcome State Fault Refusal :=
  .next (s.flagThenResult x y (shiftedOutRight (s.reg x)) (fun a _ => a >>> 1)).advance

/-- `8xy7` SUBN Vx, Vy (R171): VF the not-borrow of Vy - Vx on the old values, then Vy - Vx of the re-read registers (R161). -/
def execSubn (x y : Reg) (s : State) : Host.Outcome State Fault Refusal :=
  .next (s.flagThenResult x y (notBorrow (s.reg y) (s.reg x)) (fun a b => b - a)).advance

/-- `8xyE` SHL Vx (R172): VF bit 7 of the old Vx, then the re-read Vx shifted left; Vy is not read. -/
def execShl (x y : Reg) (s : State) : Host.Outcome State Fault Refusal :=
  .next (s.flagThenResult x y (shiftedOutLeft (s.reg x)) (fun a _ => a <<< 1)).advance

end Sys2Proof.Machine
end

