-- ==== Sys2Proof/Machine/ControlFlow.lean ====
section
/-!
DEFINITION. The control-flow instructions `00E0`, `00EE`, `1nnn`, `2nnn`, `Bnnn` (spec/41_control_flow.md).
-/
namespace Sys2Proof.Machine

/-- `00E0` CLS (R130): every cell 0, `redraw <- 1`, `pc <- pc0 + 2`. -/
def execCls (s : State) : Host.Outcome State Fault Refusal :=
  .next (s.paint Framebuffer.clear).advance

/-- `00EE` RET (R131): `pc <- Pop()`, nothing added to the popped value. -/
def execRet (s : State) : Host.Outcome State Fault Refusal :=
  .next (s.pop.2.setPc s.pop.1)

/-- `1nnn` JP nnn (R132): `pc <- zext_16(NNN)`. -/
def execJp (nnn : Addr) (s : State) : Host.Outcome State Fault Refusal :=
  .next (s.setPc (zextAddr nnn))

/-- `2nnn` CALL nnn (R133): `Push(pc0 + 2); pc <- zext_16(NNN)`, the jump taken even when the push is not (D15). -/
def execCall (nnn : Addr) (s : State) : Host.Outcome State Fault Refusal :=
  .next ((s.push (s.pc + 2)).setPc (zextAddr nnn))

/-- `Bnnn` JP V0, nnn (R134): `pc <- zext_16(NNN) + zext_16(x[0])`, stored unmasked (D4). -/
def execJpV0 (nnn : Addr) (s : State) : Host.Outcome State Fault Refusal :=
  .next (s.setPc (zextAddr nnn + zextByte (s.reg 0)))

end Sys2Proof.Machine
end

