-- ==== Sys2Proof/Machine/Draw.lean ====
section
/-!
DEFINITION. The sprite draw `Dxyn` (spec/45_draw.md).
-/
namespace Sys2Proof.Machine

/-- `Dxyn` DRW Vx, Vy, n (R202): the coordinates are sampled, the `n` sprite bytes at I are XORed on, VF receives the collision flag once (D22), the redraw flag is set. -/
def execDrw (x y : Reg) (n : Nat) (s : State) : Host.Outcome State Fault Refusal :=
  let p := drawSprite (s.fb, false) (s.reg x).toNat (s.reg y).toNat (s.readBytes (s.dataAddr 0) n)
  .next ((s.paint p.1).setFlag p.2).advance

end Sys2Proof.Machine
end

