-- ==== Sys2Proof/Machine/IndexRandom.lean ====
section
/-!
DEFINITION. The index load `Annn` and the random byte `Cxnn` (spec/44_index_random.md).
-/
namespace Sys2Proof.Machine

/-- `Annn` LD I, nnn (R190). -/
def execLdI (nnn : Addr) (s : State) : Host.Outcome State Fault Refusal :=
  .next (s.setI (zextAddr nnn)).advance

/-- `Cxnn` RND Vx, nn (R191): `x[X] <- rnd & NN`, one free byte used up (log 3). -/
def execRnd (x : Reg) (nn : Byte) (s : State) : Host.Outcome State Fault Refusal :=
  .next (s.drawRandom.setReg x (s.nextRandom &&& nn)).advance

end Sys2Proof.Machine
end

