-- ==== Sys2Proof/Machine/Keys.lean ====
section
/-!
DEFINITION. The key-test skips `Ex9E`, `ExA1` (spec/46_keys.md; which of them tests "pressed": D6; the key is the low nibble of Vx: D10).
-/
namespace Sys2Proof.Machine

/-- `Ex9E` SKP Vx (R221). -/
def execSkp (x : Reg) (s : State) : Host.Outcome State Fault Refusal :=
  .next (s.skipIf (s.keyDown (lowNibble (s.reg x))))

/-- `ExA1` SKNP Vx (R222). -/
def execSknp (x : Reg) (s : State) : Host.Outcome State Fault Refusal :=
  .next (s.skipIf (!s.keyDown (lowNibble (s.reg x))))

end Sys2Proof.Machine
end

