-- ==== Sys2Proof/Machine/MiscF.lean ====
section
/-!
DEFINITION. Family F: `Fx07`, `Fx0A`, `Fx15`, `Fx18`, `Fx1E`, `Fx29`, `Fx33`, `Fx55`, `Fx65` (spec/47_misc_fx.md).
-/
namespace Sys2Proof.Machine

/-- `Fx07` LD Vx, DT (R231). -/
def execLdVxDt (x : Reg) (s : State) : Host.Outcome State Fault Refusal :=
  .next (s.setReg x s.dt).advance

/-- `Fx0A` LD Vx, K (R232): with no key pressed nothing changes and `pc` stays; else Vx receives the lowest pressed key. -/
def execLdVxK (x : Reg) (s : State) : Host.Outcome State Fault Refusal :=
  match s.firstKey with
  | none => .next s
  | some k => .next (s.setReg x (BitVec.ofNat 8 k.val)).advance

/-- `Fx15` LD DT, Vx (R234). -/
def execLdDtVx (x : Reg) (s : State) : Host.Outcome State Fault Refusal :=
  .next (s.setDt (s.reg x)).advance

/-- `Fx18` LD ST, Vx (R236): accepted, no effect but the advance; Vx is not read. -/
def execLdStVx (_x : Reg) (s : State) : Host.Outcome State Fault Refusal :=
  .next s.advance

/-- `Fx1E` ADD I, Vx (R237): VF the out-of-range flag of the old values, then I plus the re-read Vx modulo 65536 (D8). -/
def execAddI (x : Reg) (s : State) : Host.Outcome State Fault Refusal :=
  let s1 := s.setFlag (indexOutOfRange s.i (s.reg x))
  .next (s1.setI (s1.i + zextByte (s1.reg x))).advance

/-- `Fx29` LD F, Vx (R238): I the glyph address of the low nibble of Vx. -/
def execLdF (x : Reg) (s : State) : Host.Outcome State Fault Refusal :=
  .next (s.setI (s.glyphAddr (lowNibble (s.reg x)))).advance

/-- `Fx33` LD B, Vx (R240): the decimal digits of Vx at I, I + 1, I + 2; I is kept (D9). -/
def execLdB (x : Reg) (s : State) : Host.Outcome State Fault Refusal :=
  .next (s.writeBytes (s.dataAddr 0) (decimalDigits (s.reg x))).advance

/-- `Fx55` LD [I], Vx (R241): V0 to Vx stored from I on, then `I <- I + X + 1` modulo 65536. -/
def execStoreRegs (x : Reg) (s : State) : Host.Outcome State Fault Refusal :=
  .next ((s.writeBytes (s.dataAddr 0) ((regsUpTo x).map s.reg)).bumpI x).advance

/-- `Fx65` LD Vx, [I] (R242): V0 to Vx loaded from I on, then `I <- I + X + 1` modulo 65536 (D9). -/
def execLoadRegs (x : Reg) (s : State) : Host.Outcome State Fault Refusal :=
  .next (((regsUpTo x).foldl (fun t k => t.setReg k (s.readMem (s.dataAddr k.val))) s).bumpI x).advance

end Sys2Proof.Machine
end

