-- ==== Sys2Proof/Machine/Skips.lean ====
section
/-!
DEFINITION. The skip instructions `3xnn`, `4xnn`, `5xy0`, `9xy0` (spec/42_skips.md; which of a pair skips on equality: D6).
-/
namespace Sys2Proof.Machine

/-- `3xnn` SE Vx, nn (R151). -/
def execSeImm (x : Reg) (nn : Byte) (s : State) : Host.Outcome State Fault Refusal :=
  .next (s.skipIf (s.reg x == nn))

/-- `4xnn` SNE Vx, nn (R152). -/
def execSneImm (x : Reg) (nn : Byte) (s : State) : Host.Outcome State Fault Refusal :=
  .next (s.skipIf (s.reg x != nn))

/-- `5xy0` SE Vx, Vy (R153). -/
def execSeReg (x y : Reg) (s : State) : Host.Outcome State Fault Refusal :=
  .next (s.skipIf (s.reg x == s.reg y))

/-- `9xy0` SNE Vx, Vy (R154). -/
def execSneReg (x y : Reg) (s : State) : Host.Outcome State Fault Refusal :=
  .next (s.skipIf (s.reg x != s.reg y))

end Sys2Proof.Machine
end

