-- ==== Sys2Proof/Machine/Step.lean ====
section
/-!
DEFINITION. One step of the Instruction Engine (spec/40_step_cycle.md R116), and the placing of an instruction where a step fetches it.
-/
namespace Sys2Proof.Machine

/-- `step()`: the bounds check, the fetch, the decode, the meaning of the instruction or the invalid-opcode rule (R111 to R116). The random
input `rnd` is the free byte `State.nextRandom`. -/
def step (s : State) : Host.Outcome State Fault Refusal :=
  let s0 := s.beginStep
  if s0.outOfBounds then .next s0.stepOutOfBounds
  else
    match decode s0.fetch with
    | .ok i => exec i s0
    | .error _ => .next s0.stepInvalid

/-- `s` with the instruction of an opcode-table word stored where `step` fetches its next instruction. -/
def State.withFetchWord (s : State) (nbits w : Nat) : State := s.placeOpcode (tableWord nbits w)

end Sys2Proof.Machine
end

