-- ==== Sys2Proof/Machine/HostOps.lean ====
section
/-!
DEFINITION. The boundary operations a host drives the core by (spec/50_host_interface.md R260): reset, load, step, tick_timer, key-state
write, framebuffer read, redraw-flag read and clear, and any interleaving of them (R272).
-/
namespace Sys2Proof.Machine

/-- The result of `load` (R262, R263, R266). -/
inductive LoadResult where
  | success
  | ioError
  | sizeError
  deriving DecidableEq, Repr

/-- The code of a load result, in the parameters' numbering (spec/60_exceptions.md R291). -/
def LoadResult.code (c : Config) : LoadResult → Nat
  | .success => c.codes.loadSuccess
  | .ioError => c.codes.ioError
  | .sizeError => c.codes.sizeError

/-- The code of a step's status, in the parameters' numbering (spec/60_exceptions.md R291). -/
def Status.code (c : Config) : Status → Nat
  | .ok => c.codes.ok
  | .reported .invalidOpcode => c.codes.invalidOpcode
  | .reported .stackOverflow => c.codes.stackOverflow
  | .reported .stackUnderflow => c.codes.stackUnderflow
  | .reported .programCounterOutOfBounds => c.codes.programCounterOutOfBounds

/-- What a status port shows after a step: the code of the status it reported (spec/60_exceptions.md R291, R292). -/
def State.statusCode (s : State) : Nat := s.status.code s.config

/-- `reset()`: the reset state whatever the state before (R261, spec/70_reset_and_hazards.md R330). The count of used random bytes goes
on: the random source is outside the core and is not rewound (log 3). The parameters stay: FONT_TABLE is "per-instance constant data seeded
at reset" (spec/10_state.md R37). -/
def State.resetOp (s : State) : State := { State.reset with draws := s.draws, config := s.config }

/-- The largest ROM, 4096 - 512 bytes (R263). -/
def maxRom : Nat := 3584

/-- What `load` of a byte source answers; `none` is a source that cannot be read (R266). -/
def loadResult : Option (List Byte) → LoadResult
  | none => .ioError
  | some bytes => if maxRom < bytes.length then .sizeError else .success

/-- `load`: on success the bytes are copied from 0x200 on and nothing else changes; on a failure nothing changes (R262 to R266). -/
def State.load (s : State) (source : Option (List Byte)) : State :=
  match source with
  | none => s
  | some bytes => if maxRom < bytes.length then s else s.writeBytes 0x200 bytes

/-- `tick_timer()`: `if DT != 0 then DT <- DT - 1` (R268). -/
def State.tickTimer (s : State) : State := if s.dt = 0 then s else s.setDt (s.dt - 1)

/-- Key-state write: any 16 Booleans (R269). -/
def State.writeKeys (s : State) (k : Keys) : State := { s with key := k }

/-- Redraw-flag clear (R271). -/
def State.clearRedraw (s : State) : State := { s with redraw := false }

/-- Framebuffer read of one cell (R270): `State.cell`, a function of the state that changes nothing. -/
def State.readFramebuffer (s : State) (row : Fin 32) (col : Fin 64) : Bool := s.cell row col

/-- Redraw-flag read (R271). -/
def State.readRedraw (s : State) : Bool := s.redraw

/-- The end of a run. The machine has none, and "A model must define the end of a run itself": this definition is the model's own, DESIGN
CHOICE (log 22), the spec's example of one, that `pc` points at a `1nnn` whose target is `pc` (R276, D23). It is an observation: no operation
reads it, and a step from such a state is a step like any other. -/
def State.ended (s : State) : Bool :=
  !s.outOfBounds && match decode s.fetch with
    | .ok (.jp nnn) => decide (zextAddr nnn = s.pc)
    | _ => false

/-- The boundary operations that can change the state (R260). -/
inductive HostOp where
  | reset
  | load (source : Option (List Byte))
  | step
  | tickTimer
  | writeKeys (k : Keys)
  | clearRedraw
  deriving DecidableEq, Repr

/-- One boundary operation, run to completion (R272). -/
def perform (o : HostOp) (s : State) : Host.Outcome State Fault Refusal :=
  match o with
  | .reset => .next s.resetOp
  | .load source => .next (s.load source)
  | .step => step s
  | .tickTimer => .next s.tickTimer
  | .writeKeys k => .next (s.writeKeys k)
  | .clearRedraw => .next s.clearRedraw

/-- A sequence of boundary operations, each applied to the state the previous one left (R272): a schedule of the host. -/
def performAll (os : List HostOp) (s : State) : Host.Outcome State Fault Refusal :=
  match os with
  | [] => .next s
  | o :: rest =>
    match perform o s with
    | .next t => performAll rest t
    | .fault r => .fault r
    | .refused r => .refused r

end Sys2Proof.Machine
end

