-- ==== Sys2Proof/Safety.lean ====
section
/-!
DEFINITION. The terms claims are stated in: the parts of the state and what stays unchanged, the reset state, the invariant of the reachable
states (spec/10_state.md R39), what a step runs, and the tables of spec/10_state.md R23, R24, R26 as functions of the instruction.
-/
namespace Sys2Proof.Machine

/-! ## Frames -/

/-- The parts of the state, one per field. -/
inductive Part where
  | regs | index | pc | sp | stack | dt | mem | fb | key | redraw | status | draws | config
  deriving DecidableEq, Repr

/-- A part has the same value in both states: register by register, entry by entry, byte by byte, cell by cell. -/
def samePart (s t : State) : Part → Prop
  | .regs => ∀ x, t.reg x = s.reg x
  | .index => t.i = s.i
  | .pc => t.pc = s.pc
  | .sp => t.sp = s.sp
  | .stack => ∀ k : Fin 16, t.stack[k] = s.stack[k]
  | .dt => t.dt = s.dt
  | .mem => ∀ a, t.readMem a = s.readMem a
  | .fb => ∀ row col, t.cell row col = s.cell row col
  | .key => ∀ k, t.keyDown k = s.keyDown k
  | .redraw => t.redraw = s.redraw
  | .status => t.status = s.status
  | .draws => t.draws = s.draws
  | .config => t.config = s.config

/-- From `s` to `t` every part outside `ps` is unchanged. -/
def UnchangedBut (ps : List Part) (s t : State) : Prop := ∀ p, p ∉ ps → samePart s t p

/-- From `s` to `t` every register outside `xs` is unchanged. -/
def RegsUnchangedBut (xs : List Reg) (s t : State) : Prop := ∀ r, r ∉ xs → t.reg r = s.reg r

/-- From `s` to `t` every stack entry outside `ks` is unchanged. -/
def StackUnchangedBut (ks : List Nat) (s t : State) : Prop := ∀ k : Fin 16, k.val ∉ ks → t.stack[k] = s.stack[k]

/-- The address `a` is none of the `n` addresses from `base` on, as the memory port sees them, modulo 4096 (spec/20_memory.md R55). -/
def OutsideBytes (base n a : Nat) : Prop := ∀ k < n, a % 4096 ≠ (base + k) % 4096

/-! ## Reset and the invariant -/

/-- The table of reset values of spec/10_state.md R38, with the font of the machine's own parameters. -/
structure IsResetState (t : State) : Prop where
  regs : ∀ x, t.reg x = 0
  index : t.i = 0
  pc : t.pc = 0x200
  sp : t.sp = 0
  stack : ∀ k : Fin 16, t.stack[k] = 0
  dt : t.dt = 0
  fb : ∀ row col, t.cell row col = false
  key : ∀ k, t.keyDown k = false
  redraw : t.redraw = false
  font : ∀ k : Fin 80, t.readMem (t.config.fontBase.val + k.val) = t.config.fontTable[k]
  zero : ∀ a, a < 4096 → (a < t.config.fontBase.val ∨ t.config.fontBase.val + 80 ≤ a) → t.readMem a = 0

/-- The largest program counter of a reachable state (spec/10_state.md R26, R39). -/
def pcBound (c : Config) : Nat := max 0x10FE c.stackPopDefault.toNat

/-- The invariant of the reachable states: memory in canonical form, the program counter within its bound, every stack entry in use a return
address `pc0 + 2` of a call at some `pc0 <= 0xFFF` (spec/10_state.md R39). That sp <= 16 and the widths hold is in the types. -/
structure Inv (s : State) : Prop where
  mem_wf : s.mem.wf s.config = true
  pc_le : s.pc.toNat ≤ pcBound s.config
  stack_entry : ∀ k : Fin 16, k.val < s.sp.val → 2 ≤ (s.stack[k]).toNat ∧ (s.stack[k]).toNat ≤ 0x1001

/-! ## What a step runs -/

/-- A step from `s` fetches and runs the instruction `i` (spec/40_step_cycle.md R111 to R114). -/
def Runs (s : State) (i : Instr) : Prop := s.pc.toNat < 0x1000 ∧ decode s.fetch = .ok i

/-- A step from `s` fetches an invalid opcode (spec/40_step_cycle.md R115). -/
def FetchesInvalid (s : State) : Prop := s.pc.toNat < 0x1000 ∧ decode s.fetch = .error (.invalidOpcode s.fetch)

/-- The machine waits for a key: the opcode at `pc` is an `Fx0A` and no key is pressed (spec/47_misc_fx.md R233). -/
def WaitsForKey (s : State) : Prop := (∃ x, Runs s (.ldVxK x)) ∧ ∀ k, s.keyDown k = false

/-- A condition as the number a flag holds. -/
def bit (p : Prop) [Decidable p] : Nat := if p then 1 else 0

/-- The register `r` after the instruction `i`, as a number; `none` where the meaning answers no next state. -/
def regAfter (i : Instr) (s : State) (r : Reg) : Option Nat :=
  match exec i s with
  | .next t => some (t.reg r).toNat
  | .fault _ => none
  | .refused _ => none

/-- The outcome of a flag-writing ALU instruction in the order of spec/43_load_alu.md R161: VF holds the flag `c` unless it is Vx, Vx holds
`res` of the operands, where an operand that is VF is the new flag; nothing else changes but `pc`. -/
def FlagFirstOutcome (i : Instr) (x y : Reg) (s : State) (c : Bool) (res : Nat → Nat → Nat) : Prop :=
  ∃ t, exec i s = .next t ∧ UnchangedBut [.regs, .pc] s t ∧ RegsUnchangedBut [x, .vf] s t ∧ t.pc = s.pc + 2 ∧
    (x ≠ .vf → (t.reg .vf).toNat = c.toNat) ∧
    (t.reg x).toNat = res (if x = .vf then c.toNat else (s.reg x).toNat) (if y = .vf then c.toNat else (s.reg y).toNat)

/-- The sprite of `Dxyn` has a 1 bit at a cell: some row `k < n` and column `j < 8` land there, modulo 32 and 64, and bit `7 - j` of the byte at
`I + k` is 1 (spec/45_draw.md R201, R202). -/
def SpriteAt (s : State) (x y : Reg) (n : Nat) (row : Fin 32) (col : Fin 64) : Prop :=
  ∃ k < n, ∃ j < 8, row.val = ((s.reg y).toNat + k) % 32 ∧ col.val = ((s.reg x).toNat + j) % 64 ∧
    (s.readMem (s.i.toNat + k)).getLsbD (7 - j) = true

/-- The instruction writes VF: as a flag, or as its destination (spec/10_state.md R23). -/
def writesVf : Instr → Bool
  | .addReg _ _ | .sub _ _ | .shr _ _ | .subn _ _ | .shl _ _ | .drw _ _ _ | .addI _ => true
  | .ldImm x _ | .addImm x _ | .ldReg x _ | .orReg x _ | .andReg x _ | .xorReg x _ | .rnd x _ | .ldVxDt x | .ldVxK x
  | .loadRegs x => x == Reg.vf
  | .cls | .ret | .jp _ | .call _ | .seImm _ _ | .sneImm _ _ | .seReg _ _ | .sneReg _ _ | .ldI _ | .jpV0 _ | .skp _ | .sknp _
  | .ldDtVx _ | .ldStVx _ | .ldF _ | .ldB _ | .storeRegs _ => false

/-- The instruction writes I (spec/10_state.md R24). -/
def writesIndex : Instr → Bool
  | .ldI _ | .addI _ | .ldF _ | .storeRegs _ | .loadRegs _ => true
  | .cls | .ret | .jp _ | .call _ | .seImm _ _ | .sneImm _ _ | .seReg _ _ | .ldImm _ _ | .addImm _ _ | .ldReg _ _ | .orReg _ _
  | .andReg _ _ | .xorReg _ _ | .addReg _ _ | .sub _ _ | .shr _ _ | .subn _ _ | .shl _ _ | .sneReg _ _ | .jpV0 _ | .rnd _ _
  | .drw _ _ _ | .skp _ | .sknp _ | .ldVxDt _ | .ldVxK _ | .ldDtVx _ | .ldStVx _ | .ldB _ => false

/-- How each instruction leaves `pc`, as a number, `pc0` being its value before (spec/10_state.md R26). -/
def nextPc (s : State) : Instr → Nat
  | .jp nnn | .call nnn => nnn.toNat
  | .jpV0 nnn => nnn.toNat + (s.reg 0).toNat
  | .ret => if h : s.sp.val = 0 then s.config.stackPopDefault.toNat else (s.stack[s.sp.val - 1]'(by omega)).toNat
  | .seImm x nn => if s.reg x = nn then s.pc.toNat + 4 else s.pc.toNat + 2
  | .sneImm x nn => if s.reg x ≠ nn then s.pc.toNat + 4 else s.pc.toNat + 2
  | .seReg x y => if s.reg x = s.reg y then s.pc.toNat + 4 else s.pc.toNat + 2
  | .sneReg x y => if s.reg x ≠ s.reg y then s.pc.toNat + 4 else s.pc.toNat + 2
  | .skp x => if s.keyDown (Fin.ofNat 16 (s.reg x).toNat) = true then s.pc.toNat + 4 else s.pc.toNat + 2
  | .sknp x => if s.keyDown (Fin.ofNat 16 (s.reg x).toNat) = false then s.pc.toNat + 4 else s.pc.toNat + 2
  | .ldVxK _ => if ∃ k, s.keyDown k = true then s.pc.toNat + 2 else s.pc.toNat
  | .cls | .ldImm _ _ | .addImm _ _ | .ldReg _ _ | .orReg _ _ | .andReg _ _ | .xorReg _ _ | .addReg _ _ | .sub _ _ | .shr _ _
  | .subn _ _ | .shl _ _ | .ldI _ | .rnd _ _ | .drw _ _ _ | .ldVxDt _ | .ldDtVx _ | .ldStVx _ | .addI _ | .ldF _ | .ldB _
  | .storeRegs _ | .loadRegs _ => s.pc.toNat + 2

/-- The opcode is invalid, by the digits of spec/30_encoding.md R93. -/
def InvalidByDigits (op : Word) : Prop :=
  (op.toNat / 4096 = 0x0 ∧ op ≠ 0x00E0 ∧ op ≠ 0x00EE) ∨
  (op.toNat / 4096 = 0x5 ∧ op.toNat % 16 ≠ 0) ∨
  (op.toNat / 4096 = 0x8 ∧ op.toNat % 16 ∈ [0x8, 0x9, 0xA, 0xB, 0xC, 0xD, 0xF]) ∨
  (op.toNat / 4096 = 0x9 ∧ op.toNat % 16 ≠ 0) ∨
  (op.toNat / 4096 = 0xE ∧ op.toNat % 256 ∉ [0x9E, 0xA1]) ∨
  (op.toNat / 4096 = 0xF ∧ op.toNat % 256 ∉ [0x07, 0x0A, 0x15, 0x18, 0x1E, 0x29, 0x33, 0x55, 0x65])

/-! ## The stack as a whole, and what no instruction can observe -/

/-- `n` pops, the values in the order they come. -/
def popN : Nat → State → List Word × State
  | 0, s => ([], s)
  | n + 1, s =>
    let p := s.pop
    let q := popN n p.2
    (p.1 :: q.1, q.2)

/-- The states agree except on stack entries not in use, at `sp` and above (spec/10_state.md R27). -/
def AgreeButStale (s t : State) : Prop :=
  UnchangedBut [.stack] s t ∧ ∀ k : Fin 16, k.val < s.sp.val → t.stack[k] = s.stack[k]

/-- The next state of a step, and `s` itself where there is none. -/
def after (s : State) : State :=
  match step s with
  | .next t => t
  | .fault _ => s
  | .refused _ => s

end Sys2Proof.Machine
end

