-- ==== Sys2Proof/Certificates/Slice0/Obligations.lean ====
section
/-!
DEFINITION. The statements for the provers. A statement whose docstring names a decision D<n> or a log entry rests, in that clause, on a
choice the spec or the model marks as its own, and has basis 'derived' in OBLIGATIONS.json.
-/
open Sys2Proof Sys2Proof.Machine

/-! ## Encoding -/

/-- Decoding the encoding of a well-formed instruction gives it back, from the opcode and from the bytes (spec/30_encoding.md sections 1 to 3;
the assignment of opcodes rests on D13, D14, D30, log 12). -/
def Obligations.DecodeOfEncode : Prop :=
  ∀ i : Instr, i.WellFormed → decode (encode i) = .ok i ∧ ∀ rest, decodeBytes (opcodeBytes (encode i) ++ rest) = .ok (i, rest)

/-- An opcode that decodes has one instruction, which is well formed and encodes to that opcode: no bit is lost (spec/30_encoding.md
section 3; D13, D14, D30, log 12). -/
def Obligations.EncodeOfDecode : Prop :=
  ∀ (op : Word) (i : Instr), decode op = .ok i → i.WellFormed ∧ encode i = op

/-- The opcodes the decoder refuses are exactly those of R93, by digits (D13, D14, log 12). -/
def Obligations.InvalidOpcodesExactly : Prop :=
  ∀ op : Word, (decode op = .error (.invalidOpcode op) ↔ InvalidByDigits op) ∧ ∀ e, decode op = .error e → e = .invalidOpcode op

/-- Ten words written out from the opcode map decode to the instructions they stand for, and 0x01E0 is refused (spec/30_encoding.md section 3,
spec/95_test_vectors.md Part 2; that 0x01E0 is refused is D13 and D14, that 0x8127 is SUBN is
D30, log 12). -/
def Obligations.SampleWordsDecode : Prop :=
  decode 0x00E0 = .ok .cls ∧ decode 0x220C = .ok (.call 0x20C) ∧ decode 0x5AB0 = .ok (.seReg 0xA 0xB) ∧
    decode 0x6A3D = .ok (.ldImm 0xA 0x3D) ∧ decode 0x8127 = .ok (.subn 1 2) ∧ decode 0xA050 = .ok (.ldI 0x050) ∧
    decode 0xC30F = .ok (.rnd 3 0x0F) ∧ decode 0xD345 = .ok (.drw 3 4 5) ∧ decode 0xE3A1 = .ok (.sknp 3) ∧
    decode 0xF265 = .ok (.loadRegs 2) ∧ decode 0x01E0 = .error (.invalidOpcode 0x01E0)

/-! ## The step -/

/-- When the two bytes at `pc` and `pc + 1` decode to an instruction, a step is that instruction's meaning on the state whose status is set to
OK, all else unchanged (spec/40_step_cycle.md section of R110 to R116; the address reduction of the second byte is D3, log 4; the status
field is the model's own, log 2). -/
def Obligations.StepRunsDecodedInstruction : Prop :=
  ∀ (s : State) (i : Instr), s.pc.toNat < 0x1000 →
    decode (opcodeOf (s.readMem s.pc.toNat) (s.readMem (s.pc.toNat + 1))) = .ok i →
    step s = exec i s.beginStep ∧ UnchangedBut [.status] s s.beginStep ∧ s.beginStep.status = .ok

/-- An opcode stored at `pc` is what the very next step runs: the fetch sees every store (spec/20_memory.md section 8; D3, D26, logs 4, 19). -/
def Obligations.StoredOpcodeIsRunNext : Prop :=
  ∀ (s : State) (i : Instr), i.WellFormed → s.pc.toNat < 0x1000 →
    let t := (s.writeMem s.pc.toNat ((encode i >>> 8).setWidth 8)).writeMem (s.pc.toNat + 1) ((encode i).setWidth 8)
    step t = exec i t.beginStep

/-- An invalid opcode is reported, the program counter advances by 2 and nothing else changes (spec/40_step_cycle.md R115). -/
def Obligations.InvalidOpcodeAdvancesByTwo : Prop :=
  ∀ s : State, FetchesInvalid s → ∃ t, step s = .next t ∧ UnchangedBut [.pc, .status] s t ∧ t.pc = s.pc + 2 ∧
    t.status = .reported .invalidOpcode

/-- A step that begins out of bounds reports it and changes nothing, and so does every later step, until the host does something else
(spec/40_step_cycle.md R111; that nothing changes is D4, log 5). -/
def Obligations.OutOfBoundsStepsForever : Prop :=
  ∀ (s : State) (n : Nat), 0x1000 ≤ s.pc.toNat → ∃ t, performAll (List.replicate (n + 1) .step) s = .next t ∧
    UnchangedBut [.status] s t ∧ t.status = .reported .programCounterOutOfBounds

/-- The status a step reports, in every case: at most one condition, and only the conditions' own causes (spec/60_exceptions.md section 2;
the effects it names rest on D4, D13 to D17, logs 2, 5, 12, 13). -/
def Obligations.StatusOfEveryStep : Prop :=
  ∀ s : State, ∃ t, step s = .next t ∧
    ((0x1000 ≤ s.pc.toNat ∧ t.status = .reported .programCounterOutOfBounds) ∨
      (FetchesInvalid s ∧ t.status = .reported .invalidOpcode) ∨
      ((∃ nnn, Runs s (.call nnn)) ∧ s.sp.val = 16 ∧ t.status = .reported .stackOverflow) ∨
      (Runs s .ret ∧ s.sp.val = 0 ∧ t.status = .reported .stackUnderflow) ∨
      (∃ i, Runs s i ∧ ¬((∃ nnn, i = .call nnn) ∧ s.sp.val = 16) ∧ ¬(i = .ret ∧ s.sp.val = 0) ∧ t.status = .ok))

/-- How every instruction leaves `pc`, from an address a step can fetch at (spec/10_state.md R26; D4, D6, D10, D15, D16, logs 5, 7, 10, 13). -/
def Obligations.ProgramCounterAfterEveryInstruction : Prop :=
  ∀ (i : Instr) (s : State), s.pc.toNat < 0x1000 → ∃ t, exec i s = .next t ∧ t.pc.toNat = nextPc s i

/-! ## Reset and the invariant of the reachable states -/

/-- The reset state, and the state after the reset operation whatever the state before, has the values of R330. -/
def Obligations.ResetLeavesTheResetState : Prop :=
  IsResetState State.reset ∧ ∀ s : State, ∃ t, perform .reset s = .next t ∧ IsResetState t ∧ t.config = s.config

/-- The reset state meets the invariant (spec/10_state.md section 9; log 20 for memory's canonical form). -/
def Obligations.ResetMeetsInvariant : Prop := Inv State.reset

/-- Every step keeps the invariant, from every state that meets it (spec/10_state.md section 9; D4, D15, D16, logs 5, 13, 20). -/
def Obligations.EveryStepKeepsInvariant : Prop :=
  ∀ s t : State, Inv s → step s = .next t → Inv t

/-- Every schedule of boundary operations runs to its end and keeps the invariant (spec/10_state.md section 9, spec/50_host_interface.md
section 2; D4, D15, D16, D20, logs 5, 13, 14, 20). -/
def Obligations.EveryScheduleKeepsInvariant : Prop :=
  ∀ (os : List HostOp) (s : State), Inv s → ∃ t, performAll os s = .next t ∧ Inv t ∧ t.config = s.config

/-! ## Memory -/

/-- A memory write sets the byte at the address modulo 4096 and changes nothing else (spec/20_memory.md section 2; that every
address is reduced modulo 4096 is D3, log 4). -/
def Obligations.MemoryWriteSetsOneByte : Prop :=
  ∀ (s : State) (addr : Nat) (b : Byte), UnchangedBut [.mem] s (s.writeMem addr b) ∧
    (∀ a, (s.writeMem addr b).readMem a = if a % 4096 = addr % 4096 then b else s.readMem a) ∧
    ∀ a, s.readMem a = s.readMem (a % 4096)

/-! ## Control flow -/

/-- `00E0`: every cell 0, the redraw flag set whatever the cells were (D18, log 17), `pc` advanced, nothing else (spec/41_control_flow.md). -/
def Obligations.ClearScreenResult : Prop :=
  ∀ s : State, ∃ t, exec .cls s = .next t ∧ UnchangedBut [.fb, .redraw, .pc] s t ∧ (∀ row col, t.cell row col = false) ∧
    t.redraw = true ∧ t.pc = s.pc + 2

/-- `00EE`: `pc` is the popped entry, nothing added; on an empty stack StackUnderflow is raised and `pc` is the
parameter STACK_POP_DEFAULT (D16, logs 1, 13). -/
def Obligations.ReturnResult : Prop :=
  ∀ s : State, ∃ t, exec .ret s = .next t ∧
    (if h : s.sp.val = 0 then
      UnchangedBut [.pc, .status] s t ∧ t.pc = s.config.stackPopDefault ∧ t.status = .reported .stackUnderflow
    else
      UnchangedBut [.pc, .sp] s t ∧ t.pc = s.stack[s.sp.val - 1]'(by omega) ∧ t.sp.val = s.sp.val - 1)

/-- `1nnn`: `pc <- zext_16(NNN)` and nothing else; where it jumps to itself every later step runs it again and changes no architectural state
(spec/41_control_flow.md R132; the status, the step's output, is OK). -/
def Obligations.JumpResult : Prop :=
  (∀ nnn : Addr, decode (BitVec.ofNat 16 (0x1000 + nnn.toNat)) = .ok (.jp nnn)) ∧
  (∀ (s : State) (nnn : Addr), ∃ t, exec (.jp nnn) s = .next t ∧ UnchangedBut [.pc] s t ∧ t.pc.toNat = nnn.toNat) ∧
  ∀ (s : State) (nnn : Addr) (n : Nat), Runs s (.jp nnn) → s.pc.toNat = nnn.toNat →
    ∃ t, performAll (List.replicate (n + 1) .step) s = .next t ∧ UnchangedBut [.status] s t ∧ t.status = .ok ∧ Runs t (.jp nnn)

/-- `2nnn`: the address after the call is pushed and `pc <- NNN`; on a full stack StackOverflow is raised, nothing is pushed and the jump is still
taken (D15, log 13). -/
def Obligations.CallResult : Prop :=
  ∀ (s : State) (nnn : Addr), ∃ t, exec (.call nnn) s = .next t ∧ t.pc.toNat = nnn.toNat ∧
    (if h : s.sp.val < 16 then
      UnchangedBut [.pc, .sp, .stack] s t ∧ StackUnchangedBut [s.sp.val] s t ∧ t.stack[s.sp.val]'h = s.pc + 2 ∧
        t.sp.val = s.sp.val + 1
    else
      UnchangedBut [.pc, .status] s t ∧ t.status = .reported .stackOverflow)

/-- `Bnnn`: `pc <- NNN + V0`, the sum unmasked (D4, log 5), and nothing else. -/
def Obligations.JumpWithOffsetResult : Prop :=
  ∀ (s : State) (nnn : Addr), ∃ t, exec (.jpV0 nnn) s = .next t ∧ UnchangedBut [.pc] s t ∧
    t.pc.toNat = nnn.toNat + (s.reg 0).toNat

/-- Pushed values come back last in, first out, and the pointer returns, for any sequence that fits (spec/41_control_flow.md section 1). -/
def Obligations.StackIsLastInFirstOut : Prop :=
  ∀ (s : State) (ws : List Word), s.sp.val + ws.length ≤ 16 →
    (popN ws.length (ws.foldl State.push s)).1 = ws.reverse ∧ AgreeButStale s (popN ws.length (ws.foldl State.push s)).2

/-! ## Skips -/

/-- The four register skips: `pc + 4` when the condition holds, else `pc + 2`, and nothing else changes (spec/42_skips.md; which of a pair
tests equality is D6, log 7). -/
def Obligations.SkipResults : Prop :=
  ∀ (s : State) (x y : Reg) (nn : Byte),
    (∃ t, exec (.seImm x nn) s = .next t ∧ UnchangedBut [.pc] s t ∧ t.pc = if s.reg x = nn then s.pc + 4 else s.pc + 2) ∧
    (∃ t, exec (.sneImm x nn) s = .next t ∧ UnchangedBut [.pc] s t ∧ t.pc = if s.reg x ≠ nn then s.pc + 4 else s.pc + 2) ∧
    (∃ t, exec (.seReg x y) s = .next t ∧ UnchangedBut [.pc] s t ∧ t.pc = if s.reg x = s.reg y then s.pc + 4 else s.pc + 2) ∧
    (∃ t, exec (.sneReg x y) s = .next t ∧ UnchangedBut [.pc] s t ∧ t.pc = if s.reg x ≠ s.reg y then s.pc + 4 else s.pc + 2)

/-- The two key skips: the key is the low nibble of Vx (D10, log 10); `Ex9E` skips when it is pressed, `ExA1` when it is not (D6, log 7). -/
def Obligations.KeySkipResults : Prop :=
  ∀ (s : State) (x : Reg) (k : Fin 16), k.val = (s.reg x).toNat % 16 →
    (∃ t, exec (.skp x) s = .next t ∧ UnchangedBut [.pc] s t ∧ t.pc = if s.keyDown k = true then s.pc + 4 else s.pc + 2) ∧
    (∃ t, exec (.sknp x) s = .next t ∧ UnchangedBut [.pc] s t ∧ t.pc = if s.keyDown k = false then s.pc + 4 else s.pc + 2)

/-! ## Loads and the ALU -/

/-- `6xnn`: Vx holds NN, the other registers and all else but `pc` are unchanged (spec/43_load_alu.md R162). -/
def Obligations.LoadImmediateResult : Prop :=
  ∀ (s : State) (x : Reg) (nn : Byte), decode (BitVec.ofNat 16 (0x6000 + 256 * x.val + nn.toNat)) = .ok (.ldImm x nn) ∧ ∃ t, exec (.ldImm x nn) s = .next t ∧ UnchangedBut [.regs, .pc] s t ∧
    RegsUnchangedBut [x] s t ∧ t.reg x = nn ∧ t.pc = s.pc + 2

/-- `7xnn`: Vx holds the sum modulo 256; VF is written only as Vx (spec/43_load_alu.md R163). -/
def Obligations.AddImmediateResult : Prop :=
  ∀ (s : State) (x : Reg) (nn : Byte), decode (BitVec.ofNat 16 (0x7000 + 256 * x.val + nn.toNat)) = .ok (.addImm x nn) ∧ ∃ t, exec (.addImm x nn) s = .next t ∧ UnchangedBut [.regs, .pc] s t ∧
    RegsUnchangedBut [x] s t ∧ (t.reg x).toNat = ((s.reg x).toNat + nn.toNat) % 256 ∧ t.pc = s.pc + 2

/-- `8xy0`: Vx holds Vy. `8xy1`, `8xy2`, `8xy3`: each bit of Vx is the or, and, exclusive or of the operands' bits. VF is written only as Vx
(spec/43_load_alu.md section 3; that the low nibbles 1, 2 and 3 are OR, AND and XOR is D30, log 12). -/
def Obligations.AssignAndLogicResults : Prop :=
  ∀ (s : State) (x y : Reg),
    (let op := 0x8000 + 256 * x.val + 16 * y.val
     decode (BitVec.ofNat 16 op) = .ok (.ldReg x y) ∧ decode (BitVec.ofNat 16 (op + 1)) = .ok (.orReg x y) ∧
       decode (BitVec.ofNat 16 (op + 2)) = .ok (.andReg x y) ∧ decode (BitVec.ofNat 16 (op + 3)) = .ok (.xorReg x y)) ∧
    (∃ t, exec (.ldReg x y) s = .next t ∧ UnchangedBut [.regs, .pc] s t ∧ RegsUnchangedBut [x] s t ∧ t.pc = s.pc + 2 ∧
      t.reg x = s.reg y) ∧
    (∃ t, exec (.orReg x y) s = .next t ∧ UnchangedBut [.regs, .pc] s t ∧ RegsUnchangedBut [x] s t ∧ t.pc = s.pc + 2 ∧
      ∀ b, (t.reg x).getLsbD b = ((s.reg x).getLsbD b || (s.reg y).getLsbD b)) ∧
    (∃ t, exec (.andReg x y) s = .next t ∧ UnchangedBut [.regs, .pc] s t ∧ RegsUnchangedBut [x] s t ∧ t.pc = s.pc + 2 ∧
      ∀ b, (t.reg x).getLsbD b = ((s.reg x).getLsbD b && (s.reg y).getLsbD b)) ∧
    (∃ t, exec (.xorReg x y) s = .next t ∧ UnchangedBut [.regs, .pc] s t ∧ RegsUnchangedBut [x] s t ∧ t.pc = s.pc + 2 ∧
      ∀ b, (t.reg x).getLsbD b = ((s.reg x).getLsbD b ^^ (s.reg y).getLsbD b))

/-- `8xy4`: the carry of the old values, then the sum of the re-read registers (the re-reading is D7, log 8). -/
def Obligations.AddWithCarryResult : Prop :=
  ∀ (s : State) (x y : Reg),
    FlagFirstOutcome (.addReg x y) x y s (decide (255 < (s.reg x).toNat + (s.reg y).toNat)) (fun a b => (a + b) % 256)

/-- `8xy5` and `8xy7`: the not-borrow of the old values (its polarity is D5, log 6), then the difference modulo 256 of the re-read registers (D7,
log 8); SUBN is Vy - Vx (D30, log 12). -/
def Obligations.SubtractResults : Prop :=
  ∀ (s : State) (x y : Reg),
    FlagFirstOutcome (.sub x y) x y s (decide ((s.reg y).toNat ≤ (s.reg x).toNat)) (fun a b => (a + 256 - b) % 256) ∧
    FlagFirstOutcome (.subn x y) x y s (decide ((s.reg x).toNat ≤ (s.reg y).toNat)) (fun a b => (b + 256 - a) % 256)

/-- `8xy6` and `8xyE`: the bit shifted out of the old Vx, then the shift of the re-read Vx (D7, log 8); Y is ignored. -/
def Obligations.ShiftResults : Prop :=
  ∀ (s : State) (x y : Reg),
    FlagFirstOutcome (.shr x y) x y s (decide ((s.reg x).toNat % 2 = 1)) (fun a _ => a / 2) ∧
    FlagFirstOutcome (.shl x y) x y s (decide (128 ≤ (s.reg x).toNat)) (fun a _ => 2 * a % 256)

/-- The table of the flag-writing ALU instructions with VF as an operand (spec/43_load_alu.md section 4; D5, D7, D30, logs 6, 8, 12): `f` is the old
VF, `a` the old Vx, `b` the old Vy. -/
def Obligations.RegisterFAsOperandTable : Prop :=
  ∀ (s : State) (x y : Reg), x ≠ .vf → y ≠ .vf →
    let f := (s.reg .vf).toNat
    let a := (s.reg x).toNat
    let b := (s.reg y).toNat
    regAfter (.addReg .vf y) s .vf = some ((bit (f + b > 255) + b) % 256) ∧
    regAfter (.addReg x .vf) s .vf = some (bit (a + f > 255)) ∧
    regAfter (.addReg x .vf) s x = some ((a + bit (a + f > 255)) % 256) ∧
    regAfter (.addReg .vf .vf) s .vf = some (2 * bit (2 * f > 255)) ∧
    regAfter (.sub .vf y) s .vf = some ((bit (f ≥ b) + 256 - b) % 256) ∧
    regAfter (.sub x .vf) s .vf = some (bit (a ≥ f)) ∧
    regAfter (.sub x .vf) s x = some ((a + 256 - bit (a ≥ f)) % 256) ∧
    regAfter (.sub .vf .vf) s .vf = some 0 ∧
    regAfter (.shr .vf y) s .vf = some 0 ∧ regAfter (.shr .vf .vf) s .vf = some 0 ∧
    regAfter (.shr x .vf) s .vf = some (a % 2) ∧ regAfter (.shr x .vf) s x = some (a / 2) ∧
    regAfter (.subn .vf y) s .vf = some ((b + 256 - bit (b ≥ f)) % 256) ∧
    regAfter (.subn x .vf) s .vf = some (bit (f ≥ a)) ∧
    regAfter (.subn x .vf) s x = some ((bit (f ≥ a) + 256 - a) % 256) ∧
    regAfter (.subn .vf .vf) s .vf = some 0 ∧
    regAfter (.shl .vf y) s .vf = some (2 * (f / 128)) ∧ regAfter (.shl .vf .vf) s .vf = some (2 * (f / 128)) ∧
    regAfter (.shl x .vf) s .vf = some (a / 128) ∧ regAfter (.shl x .vf) s x = some (2 * a % 256)

/-! ## Index and random -/

/-- `Annn`: I holds NNN, its upper four bits 0 (spec/44_index_random.md R190). -/
def Obligations.LoadIndexResult : Prop :=
  ∀ (s : State) (nnn : Addr), decode (BitVec.ofNat 16 (0xA000 + nnn.toNat)) = .ok (.ldI nnn) ∧ ∃ t, exec (.ldI nnn) s = .next t ∧ UnchangedBut [.index, .pc] s t ∧ t.i.toNat = nnn.toNat ∧
    t.pc = s.pc + 2

/-- `Cxnn`: Vx holds a free byte under the mask NN, one free byte is used up, and no bit outside NN is set; nothing is assumed of the byte
(spec/44_index_random.md; D19, log 3). -/
def Obligations.RandomResult : Prop :=
  ∀ (s : State) (x : Reg) (nn : Byte), ∃ t, exec (.rnd x nn) s = .next t ∧ UnchangedBut [.regs, .pc, .draws] s t ∧
    RegsUnchangedBut [x] s t ∧ t.pc = s.pc + 2 ∧ t.draws = s.draws + 1 ∧
    (∀ b, (t.reg x).getLsbD b = ((Config.randomByte s.draws).getLsbD b && nn.getLsbD b)) ∧ (nn = 0 → t.reg x = 0) ∧
    (nn = 0xFF → t.reg x = Config.randomByte s.draws)

/-! ## Draw -/

/-- `Dxyn`: exactly the cells under the sprite's 1 bits toggle, with per-pixel wrap; VF is 1 when one of them was set and 0 otherwise; the redraw flag is
set (spec/45_draw.md section of R202; bit order D11, coordinates before VF D22, addresses D3, redraw D18, logs 4, 11, 17). -/
def Obligations.DrawResult : Prop :=
  ∀ (s : State) (x y : Reg) (n : Nat), (Instr.drw x y n).WellFormed →
    ∃ t, exec (.drw x y n) s = .next t ∧ UnchangedBut [.fb, .redraw, .regs, .pc] s t ∧ RegsUnchangedBut [.vf] s t ∧
      t.redraw = true ∧ t.pc = s.pc + 2 ∧
      (∀ row col, SpriteAt s x y n row col → t.cell row col = !s.cell row col) ∧
      (∀ row col, ¬SpriteAt s x y n row col → t.cell row col = s.cell row col) ∧
      ((∃ row col, SpriteAt s x y n row col ∧ s.cell row col = true) → t.reg .vf = 1) ∧
      ((¬∃ row col, SpriteAt s x y n row col ∧ s.cell row col = true) → t.reg .vf = 0)

/-- The same draw twice restores the framebuffer, when neither coordinate register is VF; the second draw's VF is 1 exactly when the sprite has a 1 bit on
a cell that was 0 before the first (spec/45_draw.md R203; D3, D11, D22, logs 4, 11). -/
def Obligations.DoubleDrawRestoresScreen : Prop :=
  ∀ (s : State) (x y : Reg) (n : Nat), (Instr.drw x y n).WellFormed → x ≠ .vf → y ≠ .vf →
    ∃ t, exec (.drw x y n) s = .next t ∧ ∃ u, exec (.drw x y n) t = .next u ∧ (∀ row col, u.cell row col = s.cell row col) ∧
      (u.reg .vf = 1 ↔ ∃ row col, SpriteAt s x y n row col ∧ s.cell row col = false)

/-! ## Family F -/

/-- `Fx07`: Vx holds DT; the value read back after `Fx15` and `n` ticks, with nothing else between, is the value written less `n`, floored at 0
(spec/47_misc_fx.md section 1, spec/50_host_interface.md section 1). -/
def Obligations.ReadDelayTimerResult : Prop :=
  (∀ x : Reg, decode (BitVec.ofNat 16 (0xF007 + 256 * x.val)) = .ok (.ldVxDt x)) ∧
  (∀ (s : State) (x : Reg), ∃ t, exec (.ldVxDt x) s = .next t ∧ UnchangedBut [.regs, .pc] s t ∧ RegsUnchangedBut [x] s t ∧
    t.reg x = s.dt ∧ t.pc = s.pc + 2) ∧
  (∀ (s : State) (x y : Reg) (n : Nat), ∃ t, exec (.ldDtVx x) s = .next t ∧
    ∃ u, performAll (List.replicate n .tickTimer) t = .next u ∧ ∃ w, exec (.ldVxDt y) u = .next w ∧
      (w.reg y).toNat = (s.reg x).toNat - n)

/-- `Fx0A`: with no key pressed nothing changes at all and the waiting step's status is OK; otherwise Vx holds the lowest pressed key and `pc`
advances (spec/47_misc_fx.md R232). -/
def Obligations.WaitForKeyResult : Prop :=
  ∀ (s : State) (x : Reg), decode (BitVec.ofNat 16 (0xF00A + 256 * x.val)) = .ok (.ldVxK x) ∧
    ((∀ k, s.keyDown k = false) → exec (.ldVxK x) s = .next s ∧
      (Runs s (.ldVxK x) → ∃ t, step s = .next t ∧ UnchangedBut [.status] s t ∧ t.status = .ok)) ∧
    (∀ k, s.keyDown k = true → (∀ j, j < k → s.keyDown j = false) →
      ∃ t, exec (.ldVxK x) s = .next t ∧ UnchangedBut [.regs, .pc] s t ∧ RegsUnchangedBut [x] s t ∧ (t.reg x).toNat = k.val ∧
        t.pc = s.pc + 2)

/-- The key wait: while the machine waits, a step changes nothing (but the model's status, which is OK) and a tick keeps it waiting; the first step
after the host has set some key goes on (spec/47_misc_fx.md R233; log 2 for the status field). -/
def Obligations.KeyWaitHoldsUntilKey : Prop :=
  ∀ s : State, WaitsForKey s →
    (∃ t, step s = .next t ∧ UnchangedBut [.status] s t ∧ t.status = .ok ∧ WaitsForKey t) ∧ WaitsForKey s.tickTimer ∧
    ∀ (ks : Keys) (k : Fin 16), ks[k] = true → ∃ u, step (s.writeKeys ks) = .next u ∧ u.pc = s.pc + 2

/-- `Fx15`: DT holds Vx and nothing else changes but `pc`; `Fx18`: nothing changes but `pc` (spec/47_misc_fx.md R234, R236). -/
def Obligations.WriteTimersResults : Prop :=
  ∀ (s : State) (x : Reg), decode (BitVec.ofNat 16 (0xF015 + 256 * x.val)) = .ok (.ldDtVx x) ∧
    decode (BitVec.ofNat 16 (0xF018 + 256 * x.val)) = .ok (.ldStVx x) ∧
    (∃ t, exec (.ldDtVx x) s = .next t ∧ UnchangedBut [.dt, .pc] s t ∧ t.dt = s.reg x ∧ t.pc = s.pc + 2) ∧
    (∃ t, exec (.ldStVx x) s = .next t ∧ UnchangedBut [.pc] s t ∧ t.pc = s.pc + 2)

/-- `Fx1E`: VF is 1 when the old I plus the old Vx exceeds 0xFFF, else 0; then I is increased by the re-read Vx modulo 65536 (spec/47_misc_fx.md;
order, no mask and wrap are D8, log 8). -/
def Obligations.AddIndexResult : Prop :=
  ∀ (s : State) (x : Reg), ∃ t, exec (.addI x) s = .next t ∧ UnchangedBut [.regs, .index, .pc] s t ∧ RegsUnchangedBut [.vf] s t ∧
    t.pc = s.pc + 2 ∧ (t.reg .vf).toNat = (if s.i.toNat + (s.reg x).toNat > 0xFFF then 1 else 0) ∧
    t.i.toNat = (s.i.toNat + (t.reg x).toNat) % 65536

/-- `Fx29`: I holds the address of the glyph of the low nibble of Vx (spec/47_misc_fx.md; FONT_BASE is a parameter, D1, log 1). -/
def Obligations.FontAddressResult : Prop :=
  ∀ (s : State) (x : Reg), ∃ t, exec (.ldF x) s = .next t ∧ UnchangedBut [.index, .pc] s t ∧
    t.i.toNat = s.config.fontBase.val + 5 * ((s.reg x).toNat % 16) ∧ t.pc = s.pc + 2

/-- `Fx33`: the hundreds, tens and ones of Vx go to the addresses I, I + 1, I + 2 modulo 4096 (D3, log 4), every other byte and I are unchanged (D9,
log 9). -/
def Obligations.StoreDecimalResult : Prop :=
  ∀ (s : State) (x : Reg), ∃ t, exec (.ldB x) s = .next t ∧ UnchangedBut [.mem, .pc] s t ∧ t.pc = s.pc + 2 ∧
    (t.readMem (s.dataAddr 0)).toNat = (s.reg x).toNat / 100 ∧
    (t.readMem (s.dataAddr 0 + 1)).toNat = (s.reg x).toNat / 10 % 10 ∧
    (t.readMem (s.dataAddr 0 + 2)).toNat = (s.reg x).toNat % 10 ∧
    ∀ a, OutsideBytes (s.dataAddr 0) 3 a → t.readMem a = s.readMem a

/-- `Fx55`: V0 to Vx go to the addresses I to I + X modulo 4096 (D3, log 4), every other byte is unchanged, I is advanced by X + 1 modulo 65536 (D8,
log 8), no register changes. -/
def Obligations.StoreRegistersResult : Prop :=
  ∀ (s : State) (x : Reg), ∃ t, exec (.storeRegs x) s = .next t ∧ UnchangedBut [.mem, .index, .pc] s t ∧ t.pc = s.pc + 2 ∧
    t.i.toNat = (s.i.toNat + x.val + 1) % 65536 ∧ (∀ k, k ≤ x → t.readMem (s.dataAddr 0 + k.val) = s.reg k) ∧
    ∀ a, OutsideBytes (s.dataAddr 0) (x.val + 1) a → t.readMem a = s.readMem a

/-- `Fx65`: V0 to Vx are loaded from the addresses I to I + X modulo 4096 (D3, log 4), the registers above keep their values, I is advanced by X + 1 modulo
65536 (D8, D9, logs 8, 9), memory is unchanged. -/
def Obligations.LoadRegistersResult : Prop :=
  ∀ (s : State) (x : Reg), ∃ t, exec (.loadRegs x) s = .next t ∧ UnchangedBut [.regs, .index, .pc] s t ∧ t.pc = s.pc + 2 ∧
    t.i.toNat = (s.i.toNat + x.val + 1) % 65536 ∧ (∀ k, k ≤ x → t.reg k = s.readMem (s.dataAddr k.val)) ∧
    ∀ k, x < k → t.reg k = s.reg k

/-- Storing V0 to Vx and loading them back at the same base, whatever the registers hold meanwhile, restores them, as long as the bytes were not
overwritten (spec/47_misc_fx.md R244; D3, log 4). -/
def Obligations.StoreThenLoadRestoresRegisters : Prop :=
  ∀ (s : State) (x : Reg), ∃ t, exec (.storeRegs x) s = .next t ∧
    ∀ w : State, w.i = s.i → (∀ k, k ≤ x → w.readMem (s.dataAddr k.val) = t.readMem (s.dataAddr k.val)) →
      ∃ u, exec (.loadRegs x) w = .next u ∧ ∀ k, k ≤ x → u.reg k = s.reg k

/-! ## Host operations -/

/-- `tick_timer()`: DT is decremented by 1 when it is not 0 and stays 0 otherwise; nothing else changes (spec/50_host_interface.md R268). -/
def Obligations.TickDecrementsDelayTimer : Prop :=
  ∀ s : State, ∃ t, perform .tickTimer s = .next t ∧ UnchangedBut [.dt] s t ∧
    t.dt.toNat = if s.dt.toNat = 0 then 0 else s.dt.toNat - 1

/-- `load` of a byte sequence that fits: the bytes are copied from 0x200 on and no other byte and no other state changes (spec/50_host_interface.md R264,
R262). -/
def Obligations.LoadCopiesRom : Prop :=
  ∀ (s : State) (bytes : List Byte), bytes.length ≤ 3584 → ∃ t, perform (.load (some bytes)) s = .next t ∧
    loadResult (some bytes) = .success ∧ UnchangedBut [.mem] s t ∧
    (∀ k (h : k < bytes.length), t.readMem (0x200 + k) = bytes[k]) ∧
    ∀ a, OutsideBytes 0x200 bytes.length a → t.readMem a = s.readMem a

/-- `load` that fails, of more than 3584 bytes or of an unreadable source, changes nothing and says why (spec/50_host_interface.md section 1). -/
def Obligations.FailedLoadChangesNothing : Prop :=
  ∀ s : State, (∀ bytes : List Byte, 3584 < bytes.length →
      perform (.load (some bytes)) s = .next s ∧ loadResult (some bytes) = .sizeError) ∧
    perform (.load none) s = .next s ∧ loadResult none = .ioError

/-- A key-state write sets the 16 keys as given and nothing else; a redraw clear clears the flag and nothing else (spec/50_host_interface.md section 1). -/
def Obligations.KeyWriteAndRedrawClear : Prop :=
  ∀ s : State, (∀ ks : Keys, ∃ t, perform (.writeKeys ks) s = .next t ∧ UnchangedBut [.key] s t ∧ ∀ k : Fin 16, t.keyDown k = ks[k]) ∧
    ∃ t, perform .clearRedraw s = .next t ∧ UnchangedBut [.redraw] s t ∧ t.redraw = false

/-! ## Who changes what, over all instructions and operations -/

/-- The key state is changed by the host's key write and reset only, never by a step (spec/10_state.md section 5, spec/40_step_cycle.md). -/
def Obligations.KeysChangedOnlyByHost : Prop :=
  ∀ (o : HostOp) (s t : State), perform o s = .next t → (∃ k, t.keyDown k ≠ s.keyDown k) → o = .reset ∨ ∃ ks, o = .writeKeys ks

/-- DT grows only by a step that runs `Fx15`, which sets it to Vx; no other step changes it (spec/10_state.md section 9, spec/40_step_cycle.md). -/
def Obligations.DelayTimerGrowsOnlyByWrite : Prop :=
  ∀ (o : HostOp) (s t : State), perform o s = .next t →
    (o = .step ∧ ∃ x, Runs s (.ldDtVx x) ∧ t.dt = s.reg x) ∨
      (t.dt.toNat ≤ s.dt.toNat ∧ (o = .step → t.dt = s.dt))

/-- The redraw flag is set by a step that runs `00E0` or `Dxyn` and by nothing else, and cleared by the host only (spec/10_state.md section 5; D18,
log 17). -/
def Obligations.RedrawSetOnlyByClearAndDraw : Prop :=
  ∀ s t : State, step s = .next t →
    (t.redraw = true ↔ s.redraw = true ∨ Runs s .cls ∨ ∃ x y n, Runs s (.drw x y n))

/-- A cell is changed only by a step that runs `00E0`, which clears it, or `Dxyn` (spec/45_draw.md R204, spec/10_state.md section 6). -/
def Obligations.CellsChangedOnlyByClearAndDraw : Prop :=
  ∀ s t : State, step s = .next t → (∃ row col, t.cell row col ≠ s.cell row col) →
    Runs s .cls ∨ ∃ x y n, Runs s (.drw x y n)

/-- Memory is written only by a step that runs `Fx33` or `Fx55`, and then only in its 3 or X + 1 bytes from I on (spec/20_memory.md section 2; D3,
log 4). -/
def Obligations.MemoryWrittenOnlyByStores : Prop :=
  ∀ (s t : State) (a : Nat), step s = .next t → t.readMem a ≠ s.readMem a →
    (∃ x, Runs s (.ldB x) ∧ ¬OutsideBytes (s.dataAddr 0) 3 a) ∨
      ∃ x, Runs s (.storeRegs x) ∧ ¬OutsideBytes (s.dataAddr 0) (x.val + 1) a

/-- A stack entry is written only by `2nnn`, at `sp`; `sp` moves only by `2nnn`, up by one, and `00EE`, down by one (spec/10_state.md section 3; D15, D16,
log 13). -/
def Obligations.StackChangedOnlyByCallAndReturn : Prop :=
  ∀ s t : State, step s = .next t →
    (∀ k : Fin 16, t.stack[k] ≠ s.stack[k] → (∃ nnn, Runs s (.call nnn)) ∧ k.val = s.sp.val) ∧
    (t.sp ≠ s.sp → ((∃ nnn, Runs s (.call nnn)) ∧ t.sp.val = s.sp.val + 1) ∨ (Runs s .ret ∧ t.sp.val + 1 = s.sp.val))

/-- VF changes only in a step that runs an instruction of R23's list, or one whose destination is VF (spec/10_state.md section 2). -/
def Obligations.FlagRegisterWrittenOnlyByListed : Prop :=
  ∀ s t : State, step s = .next t → t.reg .vf ≠ s.reg .vf → ∃ i, Runs s i ∧ writesVf i = true

/-- I changes only in a step that runs `Annn`, `Fx1E`, `Fx29`, `Fx55` or `Fx65` (spec/10_state.md section 3). -/
def Obligations.IndexWrittenOnlyByListed : Prop :=
  ∀ s t : State, step s = .next t → t.i ≠ s.i → ∃ i, Runs s i ∧ writesIndex i = true

/-! ## What no instruction can observe -/

/-- What an earlier step reported does not affect a step (spec/60_exceptions.md section 1; the status field is the model's, log 2). -/
def Obligations.StatusIsNotObservable : Prop :=
  ∀ (s : State) (e : Status), step { s with status := e } = step s

/-- Stack entries not in use do not affect a step: states that agree on all else step to states that agree on all else (spec/10_state.md section 3). -/
def Obligations.StaleStackIsNotObservable : Prop :=
  ∀ s t : State, AgreeButStale s t → AgreeButStale (after s) (after t)

/-- The framebuffer and the redraw flag affect no step but through `Dxyn`'s VF: two states that differ in them alone step to states that differ in them
alone, and in VF after a `Dxyn` (spec/10_state.md sections 5 and 6). -/
def Obligations.ScreenIsNotObservableExceptCollision : Prop :=
  ∀ s t : State, UnchangedBut [.fb, .redraw] s t →
    UnchangedBut [.fb, .redraw, .regs] (after s) (after t) ∧
      RegsUnchangedBut [.vf] (after s) (after t) ∧
      ((after t).reg .vf ≠ (after s).reg .vf → ∃ x y n, Runs s (.drw x y n))

/-! ## The end of a run -/

/-- A run that ended by the model's own definition, `pc` at a `1nnn` whose target is `pc`, stays ended whatever steps, ticks, key writes and redraw
clears follow, and they change nothing but DT, the keys, the redraw flag and the status (spec/50_host_interface.md section 3; that this is the end of
a run is D23, log 22, a choice of the model). -/
def Obligations.EndedRunStaysEnded : Prop :=
  (∀ s : State, s.ended = true ↔ ∃ nnn, Runs s (.jp nnn) ∧ s.pc.toNat = nnn.toNat) ∧
  ∀ (os : List HostOp) (s : State), (∀ o ∈ os, o ≠ .reset ∧ ∀ source, o ≠ .load source) → s.ended = true →
    ∃ t, performAll os s = .next t ∧ UnchangedBut [.dt, .key, .redraw, .status] s t ∧ t.ended = true
end

