-- ==== Sys2Proof/Laws/Decode.lean ====
section
/-!
SUPPORT. The laws of the decoder and the encoder: no two rows of the opcode map fit one opcode, so a fitting row decides the decode; the
fields of an encoded word; the bytes of an opcode.
-/
namespace Sys2Proof

/-! ## One row at most -/

/-- Some bit is fixed by both rows, to different values. -/
def OpRow.apart (r q : OpRow) : Prop := r.mask &&& q.mask &&& (r.pattern ^^^ q.pattern) ≠ 0#16

theorem OpRow.apart_not_both {r q : OpRow} (h : r.apart q) (op : Word) (hr : r.fits op = true) (hq : q.fits op = true) : False := by
  apply h
  simp only [OpRow.fits, beq_iff_eq] at hr hq
  rw [← hr, ← hq]
  ext i hi
  simp only [BitVec.getElem_and, BitVec.getElem_xor, BitVec.getElem_zero]
  cases op[i] <;> cases r.mask[i] <;> cases q.mask[i] <;> rfl

/-- The opcode map's rows are pairwise apart. -/
theorem opRows_apart : opRows.Pairwise OpRow.apart := by
  unfold OpRow.apart
  decide

theorem find_fits (rows : List OpRow) (op : Word) (hp : rows.Pairwise OpRow.apart) (r : OpRow) (hm : r ∈ rows)
    (hf : r.fits op = true) : rows.find? (·.fits op) = some r := by
  induction rows with
  | nil => simp at hm
  | cons q qs ih =>
    obtain ⟨hq, hqs⟩ := List.pairwise_cons.1 hp
    rcases List.mem_cons.1 hm with rfl | hm
    · simp [hf]
    · have : q.fits op = false := by
        by_contra e
        exact OpRow.apart_not_both (hq r hm) op (by simpa using e) hf
      simp [this, ih hqs hm]

/-- The row that fits an opcode decides what it decodes to. -/
theorem decode_of_fits (r : OpRow) (op : Word) (hm : r ∈ opRows) (hf : r.fits op = true) : decode op = .ok (r.instr op) := by
  simp only [decode, find_fits opRows op opRows_apart r hm hf]

/-- A decoded instruction comes from a row that fits. -/
theorem decode_ok_iff (op : Word) (i : Instr) :
    decode op = .ok i ↔ ∃ r ∈ opRows, r.fits op = true ∧ r.instr op = i := by
  constructor
  · intro h
    unfold decode at h
    split at h
    · rename_i r hr
      exact ⟨r, List.mem_of_find?_eq_some hr, by simpa using List.find?_some hr, by simpa using h⟩
    · simp at h
  · rintro ⟨r, hm, hf, rfl⟩
    exact decode_of_fits r op hm hf

/-- An opcode is rejected exactly when no row fits, and always as an invalid opcode. -/
theorem decode_error_iff (op : Word) (e : Reject) :
    decode op = .error e ↔ e = .invalidOpcode op ∧ ∀ r ∈ opRows, r.fits op = false := by
  unfold decode
  split
  · rename_i r hr
    have hm := List.mem_of_find?_eq_some hr
    have hf := List.find?_some hr
    constructor
    · intro h; simp at h
    · rintro ⟨-, h⟩
      simp [h r hm] at hf
  · rename_i hn
    have hn' : ∀ r ∈ opRows, r.fits op = false := by simpa [List.find?_eq_none] using hn
    constructor
    · intro h
      simp only [Except.error.injEq] at h
      exact ⟨h.symm, hn'⟩
    · rintro ⟨rfl, -⟩
      rfl

/-! ## Fields of encoded words -/

theorem wordA_toNat (f : BitVec 4) (nnn : Addr) : (wordA f nnn).toNat = f.toNat * 4096 + nnn.toNat := by
  have h := nnn.isLt
  rw [wordA, BitVec.toNat_append, ← Nat.shiftLeft_add_eq_or_of_lt h, Nat.shiftLeft_eq]

theorem wordXK_toNat (f : BitVec 4) (x : Reg) (nn : Byte) : (wordXK f x nn).toNat = f.toNat * 4096 + x.val * 256 + nn.toNat := by
  have h := nn.isLt
  have hx : (BitVec.ofFin (w := 4) x).toNat = x.val := rfl
  rw [wordXK, BitVec.toNat_append, ← Nat.shiftLeft_add_eq_or_of_lt h, Nat.shiftLeft_eq, BitVec.toNat_append,
    ← Nat.shiftLeft_add_eq_or_of_lt (BitVec.ofFin (w := 4) x).isLt, Nat.shiftLeft_eq, hx]
  omega

theorem wordXY_toNat (f : BitVec 4) (x y : Reg) (n : BitVec 4) :
    (wordXY f x y n).toNat = f.toNat * 4096 + x.val * 256 + y.val * 16 + n.toNat := by
  have hx : (BitVec.ofFin (w := 4) x).toNat = x.val := rfl
  have hy : (BitVec.ofFin (w := 4) y).toNat = y.val := rfl
  rw [wordXY, BitVec.toNat_append, ← Nat.shiftLeft_add_eq_or_of_lt n.isLt, Nat.shiftLeft_eq, BitVec.toNat_append,
    ← Nat.shiftLeft_add_eq_or_of_lt (BitVec.ofFin (w := 4) y).isLt, Nat.shiftLeft_eq, BitVec.toNat_append,
    ← Nat.shiftLeft_add_eq_or_of_lt (BitVec.ofFin (w := 4) x).isLt, Nat.shiftLeft_eq, hx, hy]
  omega

@[simp] theorem fieldNNN_wordA (f : BitVec 4) (nnn : Addr) : fieldNNN (wordA f nnn) = nnn := by
  apply BitVec.eq_of_toNat_eq
  have h := nnn.isLt
  simp only [fieldNNN, BitVec.toNat_setWidth, wordA_toNat]
  omega

@[simp] theorem fieldX_wordXK (f : BitVec 4) (x : Reg) (nn : Byte) : fieldX (wordXK f x nn) = x := by
  apply Fin.ext
  have h := nn.isLt
  have hx := x.isLt
  simp only [fieldX, wordXK_toNat]
  omega

@[simp] theorem fieldNN_wordXK (f : BitVec 4) (x : Reg) (nn : Byte) : fieldNN (wordXK f x nn) = nn := by
  apply BitVec.eq_of_toNat_eq
  have h := nn.isLt
  simp only [fieldNN, BitVec.toNat_setWidth, wordXK_toNat]
  omega

@[simp] theorem fieldX_wordXY (f : BitVec 4) (x y : Reg) (n : BitVec 4) : fieldX (wordXY f x y n) = x := by
  apply Fin.ext
  have h := n.isLt
  have hx := x.isLt
  have hy := y.isLt
  simp only [fieldX, wordXY_toNat]
  omega

@[simp] theorem fieldY_wordXY (f : BitVec 4) (x y : Reg) (n : BitVec 4) : fieldY (wordXY f x y n) = y := by
  apply Fin.ext
  have h := n.isLt
  have hy := y.isLt
  simp only [fieldY, wordXY_toNat]
  omega

@[simp] theorem fieldN_wordXY (f : BitVec 4) (x y : Reg) (n : BitVec 4) : fieldN (wordXY f x y n) = n.toNat := by
  have h := n.isLt
  simp only [fieldN, wordXY_toNat]
  omega

/-! ## The fixed bits of encoded words -/

theorem wordA_mask (f : BitVec 4) (nnn : Addr) : wordA f nnn &&& 0xF000 = f ++ 0#12 := by
  rw [wordA, show (0xF000 : Word) = (0xF : BitVec 4) ++ 0#12 by decide, BitVec.and_append]
  congr 1
  · exact BitVec.and_allOnes
  · exact BitVec.and_zero

theorem wordXK_mask (f : BitVec 4) (x : Reg) (nn : Byte) : wordXK f x nn &&& 0xF000 = f ++ 0#12 := by
  rw [wordXK, show (0xF000 : Word) = (0xF : BitVec 4) ++ 0#4 ++ 0#8 by decide, BitVec.and_append, BitVec.and_append,
    show f &&& 0xF = f from BitVec.and_allOnes, BitVec.and_zero, BitVec.and_zero]
  revert f
  decide

theorem wordXO_mask (f : BitVec 4) (x : Reg) (low : Byte) :
    wordXO f x low &&& 0xF0FF = f ++ 0#4 ++ low := by
  rw [wordXO, wordXK, show (0xF0FF : Word) = (0xF : BitVec 4) ++ 0#4 ++ (0xFF : BitVec 8) by decide, BitVec.and_append,
    BitVec.and_append, show f &&& 0xF = f from BitVec.and_allOnes, BitVec.and_zero, show low &&& 0xFF = low from BitVec.and_allOnes]

theorem wordXY_mask (f : BitVec 4) (x y : Reg) (n : BitVec 4) :
    wordXY f x y n &&& 0xF00F = f ++ 0#4 ++ 0#4 ++ n := by
  rw [wordXY, show (0xF00F : Word) = (0xF : BitVec 4) ++ 0#4 ++ 0#4 ++ (0xF : BitVec 4) by decide, BitVec.and_append,
    BitVec.and_append, BitVec.and_append, show f &&& 0xF = f from BitVec.and_allOnes, BitVec.and_zero, BitVec.and_zero,
    show n &&& 0xF = n from BitVec.and_allOnes]

theorem wordXY_mask_family (f : BitVec 4) (x y : Reg) (n : BitVec 4) : wordXY f x y n &&& 0xF000 = f ++ 0#12 := by
  rw [wordXY, show (0xF000 : Word) = (0xF : BitVec 4) ++ 0#4 ++ 0#4 ++ 0#4 by decide, BitVec.and_append,
    BitVec.and_append, BitVec.and_append, show f &&& 0xF = f from BitVec.and_allOnes, BitVec.and_zero, BitVec.and_zero, BitVec.and_zero]
  revert f
  decide

/-! ## Bytes of an opcode -/

/-- The two bytes of an opcode, the high one first, make the opcode again. -/
theorem opcodeOf_opcodeBytes (op : Word) : opcodeOf ((op >>> 8).setWidth 8) (op.setWidth 8) = op := by
  apply BitVec.eq_of_toNat_eq
  have h := op.isLt
  have hl : (op.setWidth 8).toNat < 2 ^ 8 := (op.setWidth 8).isLt
  rw [opcodeOf, BitVec.toNat_append, ← Nat.shiftLeft_add_eq_or_of_lt hl, Nat.shiftLeft_eq]
  simp only [BitVec.toNat_setWidth, BitVec.toNat_ushiftRight, Nat.shiftRight_eq_div_pow]
  omega

/-- Decoding the bytes of an opcode is decoding the opcode. -/
theorem decodeBytes_opcodeBytes (op : Word) (rest : List Byte) :
    decodeBytes (opcodeBytes op ++ rest) = (decode op).map (fun i => (i, rest)) := by
  simp only [opcodeBytes, List.cons_append, List.nil_append, decodeBytes, opcodeOf_opcodeBytes]
  cases decode op <;> rfl

end Sys2Proof
end

