-- ==== Sys2Proof/Laws/State.lean ====
section
/-!
SUPPORT. The small lemmas of the state's updates: for each update one lemma per field and per accessor, so that no proof unfolds a record
update.
-/
namespace Sys2Proof.Machine

/-! ## setReg -/

@[simp] theorem State.setReg_i (s : State) (y : Reg) (b : Byte) : (s.setReg y b).i = s.i := rfl
@[simp] theorem State.setReg_pc (s : State) (y : Reg) (b : Byte) : (s.setReg y b).pc = s.pc := rfl
@[simp] theorem State.setReg_sp (s : State) (y : Reg) (b : Byte) : (s.setReg y b).sp = s.sp := rfl
@[simp] theorem State.setReg_stack (s : State) (y : Reg) (b : Byte) : (s.setReg y b).stack = s.stack := rfl
@[simp] theorem State.setReg_dt (s : State) (y : Reg) (b : Byte) : (s.setReg y b).dt = s.dt := rfl
@[simp] theorem State.setReg_mem (s : State) (y : Reg) (b : Byte) : (s.setReg y b).mem = s.mem := rfl
@[simp] theorem State.setReg_readMem (s : State) (y : Reg) (b : Byte) (a : Nat) : (s.setReg y b).readMem a = s.readMem a := rfl
@[simp] theorem State.setReg_fb (s : State) (y : Reg) (b : Byte) : (s.setReg y b).fb = s.fb := rfl
@[simp] theorem State.setReg_cell (s : State) (y : Reg) (b : Byte) (r : Fin 32) (c : Fin 64) : (s.setReg y b).cell r c = s.cell r c := rfl
@[simp] theorem State.setReg_key (s : State) (y : Reg) (b : Byte) : (s.setReg y b).key = s.key := rfl
@[simp] theorem State.setReg_keyDown (s : State) (y : Reg) (b : Byte) (k : Fin 16) : (s.setReg y b).keyDown k = s.keyDown k := rfl
@[simp] theorem State.setReg_redraw (s : State) (y : Reg) (b : Byte) : (s.setReg y b).redraw = s.redraw := rfl
@[simp] theorem State.setReg_status (s : State) (y : Reg) (b : Byte) : (s.setReg y b).status = s.status := rfl
@[simp] theorem State.setReg_draws (s : State) (y : Reg) (b : Byte) : (s.setReg y b).draws = s.draws := rfl
@[simp] theorem State.setReg_config (s : State) (y : Reg) (b : Byte) : (s.setReg y b).config = s.config := rfl

/-! ## setI -/

@[simp] theorem State.setI_v (s : State) (w : Word) : (s.setI w).v = s.v := rfl
@[simp] theorem State.setI_reg (s : State) (w : Word) (x : Reg) : (s.setI w).reg x = s.reg x := rfl
@[simp] theorem State.setI_i (s : State) (w : Word) : (s.setI w).i = w := rfl
@[simp] theorem State.setI_pc (s : State) (w : Word) : (s.setI w).pc = s.pc := rfl
@[simp] theorem State.setI_sp (s : State) (w : Word) : (s.setI w).sp = s.sp := rfl
@[simp] theorem State.setI_stack (s : State) (w : Word) : (s.setI w).stack = s.stack := rfl
@[simp] theorem State.setI_dt (s : State) (w : Word) : (s.setI w).dt = s.dt := rfl
@[simp] theorem State.setI_mem (s : State) (w : Word) : (s.setI w).mem = s.mem := rfl
@[simp] theorem State.setI_readMem (s : State) (w : Word) (a : Nat) : (s.setI w).readMem a = s.readMem a := rfl
@[simp] theorem State.setI_fb (s : State) (w : Word) : (s.setI w).fb = s.fb := rfl
@[simp] theorem State.setI_cell (s : State) (w : Word) (r : Fin 32) (c : Fin 64) : (s.setI w).cell r c = s.cell r c := rfl
@[simp] theorem State.setI_key (s : State) (w : Word) : (s.setI w).key = s.key := rfl
@[simp] theorem State.setI_keyDown (s : State) (w : Word) (k : Fin 16) : (s.setI w).keyDown k = s.keyDown k := rfl
@[simp] theorem State.setI_redraw (s : State) (w : Word) : (s.setI w).redraw = s.redraw := rfl
@[simp] theorem State.setI_status (s : State) (w : Word) : (s.setI w).status = s.status := rfl
@[simp] theorem State.setI_draws (s : State) (w : Word) : (s.setI w).draws = s.draws := rfl
@[simp] theorem State.setI_config (s : State) (w : Word) : (s.setI w).config = s.config := rfl

/-! ## setDt -/

@[simp] theorem State.setDt_v (s : State) (b : Byte) : (s.setDt b).v = s.v := rfl
@[simp] theorem State.setDt_reg (s : State) (b : Byte) (x : Reg) : (s.setDt b).reg x = s.reg x := rfl
@[simp] theorem State.setDt_i (s : State) (b : Byte) : (s.setDt b).i = s.i := rfl
@[simp] theorem State.setDt_pc (s : State) (b : Byte) : (s.setDt b).pc = s.pc := rfl
@[simp] theorem State.setDt_sp (s : State) (b : Byte) : (s.setDt b).sp = s.sp := rfl
@[simp] theorem State.setDt_stack (s : State) (b : Byte) : (s.setDt b).stack = s.stack := rfl
@[simp] theorem State.setDt_dt (s : State) (b : Byte) : (s.setDt b).dt = b := rfl
@[simp] theorem State.setDt_mem (s : State) (b : Byte) : (s.setDt b).mem = s.mem := rfl
@[simp] theorem State.setDt_readMem (s : State) (b : Byte) (a : Nat) : (s.setDt b).readMem a = s.readMem a := rfl
@[simp] theorem State.setDt_fb (s : State) (b : Byte) : (s.setDt b).fb = s.fb := rfl
@[simp] theorem State.setDt_cell (s : State) (b : Byte) (r : Fin 32) (c : Fin 64) : (s.setDt b).cell r c = s.cell r c := rfl
@[simp] theorem State.setDt_key (s : State) (b : Byte) : (s.setDt b).key = s.key := rfl
@[simp] theorem State.setDt_keyDown (s : State) (b : Byte) (k : Fin 16) : (s.setDt b).keyDown k = s.keyDown k := rfl
@[simp] theorem State.setDt_redraw (s : State) (b : Byte) : (s.setDt b).redraw = s.redraw := rfl
@[simp] theorem State.setDt_status (s : State) (b : Byte) : (s.setDt b).status = s.status := rfl
@[simp] theorem State.setDt_draws (s : State) (b : Byte) : (s.setDt b).draws = s.draws := rfl
@[simp] theorem State.setDt_config (s : State) (b : Byte) : (s.setDt b).config = s.config := rfl

/-! ## setPc -/

@[simp] theorem State.setPc_v (s : State) (w : Word) : (s.setPc w).v = s.v := rfl
@[simp] theorem State.setPc_reg (s : State) (w : Word) (x : Reg) : (s.setPc w).reg x = s.reg x := rfl
@[simp] theorem State.setPc_i (s : State) (w : Word) : (s.setPc w).i = s.i := rfl
@[simp] theorem State.setPc_pc (s : State) (w : Word) : (s.setPc w).pc = w := rfl
@[simp] theorem State.setPc_sp (s : State) (w : Word) : (s.setPc w).sp = s.sp := rfl
@[simp] theorem State.setPc_stack (s : State) (w : Word) : (s.setPc w).stack = s.stack := rfl
@[simp] theorem State.setPc_dt (s : State) (w : Word) : (s.setPc w).dt = s.dt := rfl
@[simp] theorem State.setPc_mem (s : State) (w : Word) : (s.setPc w).mem = s.mem := rfl
@[simp] theorem State.setPc_readMem (s : State) (w : Word) (a : Nat) : (s.setPc w).readMem a = s.readMem a := rfl
@[simp] theorem State.setPc_fb (s : State) (w : Word) : (s.setPc w).fb = s.fb := rfl
@[simp] theorem State.setPc_cell (s : State) (w : Word) (r : Fin 32) (c : Fin 64) : (s.setPc w).cell r c = s.cell r c := rfl
@[simp] theorem State.setPc_key (s : State) (w : Word) : (s.setPc w).key = s.key := rfl
@[simp] theorem State.setPc_keyDown (s : State) (w : Word) (k : Fin 16) : (s.setPc w).keyDown k = s.keyDown k := rfl
@[simp] theorem State.setPc_redraw (s : State) (w : Word) : (s.setPc w).redraw = s.redraw := rfl
@[simp] theorem State.setPc_status (s : State) (w : Word) : (s.setPc w).status = s.status := rfl
@[simp] theorem State.setPc_draws (s : State) (w : Word) : (s.setPc w).draws = s.draws := rfl
@[simp] theorem State.setPc_config (s : State) (w : Word) : (s.setPc w).config = s.config := rfl

/-! ## advance -/

@[simp] theorem State.advance_v (s : State) : (s.advance).v = s.v := rfl
@[simp] theorem State.advance_reg (s : State) (x : Reg) : (s.advance).reg x = s.reg x := rfl
@[simp] theorem State.advance_i (s : State) : (s.advance).i = s.i := rfl
@[simp] theorem State.advance_pc (s : State) : (s.advance).pc = s.pc + 2 := rfl
@[simp] theorem State.advance_sp (s : State) : (s.advance).sp = s.sp := rfl
@[simp] theorem State.advance_stack (s : State) : (s.advance).stack = s.stack := rfl
@[simp] theorem State.advance_dt (s : State) : (s.advance).dt = s.dt := rfl
@[simp] theorem State.advance_mem (s : State) : (s.advance).mem = s.mem := rfl
@[simp] theorem State.advance_readMem (s : State) (a : Nat) : (s.advance).readMem a = s.readMem a := rfl
@[simp] theorem State.advance_fb (s : State) : (s.advance).fb = s.fb := rfl
@[simp] theorem State.advance_cell (s : State) (r : Fin 32) (c : Fin 64) : (s.advance).cell r c = s.cell r c := rfl
@[simp] theorem State.advance_key (s : State) : (s.advance).key = s.key := rfl
@[simp] theorem State.advance_keyDown (s : State) (k : Fin 16) : (s.advance).keyDown k = s.keyDown k := rfl
@[simp] theorem State.advance_redraw (s : State) : (s.advance).redraw = s.redraw := rfl
@[simp] theorem State.advance_status (s : State) : (s.advance).status = s.status := rfl
@[simp] theorem State.advance_draws (s : State) : (s.advance).draws = s.draws := rfl
@[simp] theorem State.advance_config (s : State) : (s.advance).config = s.config := rfl

/-! ## skipIf -/

@[simp] theorem State.skipIf_v (s : State) (q : Bool) : (s.skipIf q).v = s.v := rfl
@[simp] theorem State.skipIf_reg (s : State) (q : Bool) (x : Reg) : (s.skipIf q).reg x = s.reg x := rfl
@[simp] theorem State.skipIf_i (s : State) (q : Bool) : (s.skipIf q).i = s.i := rfl
@[simp] theorem State.skipIf_pc (s : State) (q : Bool) : (s.skipIf q).pc = (if q then s.pc + 4 else s.pc + 2) := rfl
@[simp] theorem State.skipIf_sp (s : State) (q : Bool) : (s.skipIf q).sp = s.sp := rfl
@[simp] theorem State.skipIf_stack (s : State) (q : Bool) : (s.skipIf q).stack = s.stack := rfl
@[simp] theorem State.skipIf_dt (s : State) (q : Bool) : (s.skipIf q).dt = s.dt := rfl
@[simp] theorem State.skipIf_mem (s : State) (q : Bool) : (s.skipIf q).mem = s.mem := rfl
@[simp] theorem State.skipIf_readMem (s : State) (q : Bool) (a : Nat) : (s.skipIf q).readMem a = s.readMem a := rfl
@[simp] theorem State.skipIf_fb (s : State) (q : Bool) : (s.skipIf q).fb = s.fb := rfl
@[simp] theorem State.skipIf_cell (s : State) (q : Bool) (r : Fin 32) (c : Fin 64) : (s.skipIf q).cell r c = s.cell r c := rfl
@[simp] theorem State.skipIf_key (s : State) (q : Bool) : (s.skipIf q).key = s.key := rfl
@[simp] theorem State.skipIf_keyDown (s : State) (q : Bool) (k : Fin 16) : (s.skipIf q).keyDown k = s.keyDown k := rfl
@[simp] theorem State.skipIf_redraw (s : State) (q : Bool) : (s.skipIf q).redraw = s.redraw := rfl
@[simp] theorem State.skipIf_status (s : State) (q : Bool) : (s.skipIf q).status = s.status := rfl
@[simp] theorem State.skipIf_draws (s : State) (q : Bool) : (s.skipIf q).draws = s.draws := rfl
@[simp] theorem State.skipIf_config (s : State) (q : Bool) : (s.skipIf q).config = s.config := rfl

/-! ## raise -/

@[simp] theorem State.raise_v (s : State) (e : Condition) : (s.raise e).v = s.v := rfl
@[simp] theorem State.raise_reg (s : State) (e : Condition) (x : Reg) : (s.raise e).reg x = s.reg x := rfl
@[simp] theorem State.raise_i (s : State) (e : Condition) : (s.raise e).i = s.i := rfl
@[simp] theorem State.raise_pc (s : State) (e : Condition) : (s.raise e).pc = s.pc := rfl
@[simp] theorem State.raise_sp (s : State) (e : Condition) : (s.raise e).sp = s.sp := rfl
@[simp] theorem State.raise_stack (s : State) (e : Condition) : (s.raise e).stack = s.stack := rfl
@[simp] theorem State.raise_dt (s : State) (e : Condition) : (s.raise e).dt = s.dt := rfl
@[simp] theorem State.raise_mem (s : State) (e : Condition) : (s.raise e).mem = s.mem := rfl
@[simp] theorem State.raise_readMem (s : State) (e : Condition) (a : Nat) : (s.raise e).readMem a = s.readMem a := rfl
@[simp] theorem State.raise_fb (s : State) (e : Condition) : (s.raise e).fb = s.fb := rfl
@[simp] theorem State.raise_cell (s : State) (e : Condition) (r : Fin 32) (c : Fin 64) : (s.raise e).cell r c = s.cell r c := rfl
@[simp] theorem State.raise_key (s : State) (e : Condition) : (s.raise e).key = s.key := rfl
@[simp] theorem State.raise_keyDown (s : State) (e : Condition) (k : Fin 16) : (s.raise e).keyDown k = s.keyDown k := rfl
@[simp] theorem State.raise_redraw (s : State) (e : Condition) : (s.raise e).redraw = s.redraw := rfl
@[simp] theorem State.raise_status (s : State) (e : Condition) : (s.raise e).status = .reported e := rfl
@[simp] theorem State.raise_draws (s : State) (e : Condition) : (s.raise e).draws = s.draws := rfl
@[simp] theorem State.raise_config (s : State) (e : Condition) : (s.raise e).config = s.config := rfl

/-! ## writeMem -/

@[simp] theorem State.writeMem_v (s : State) (d : Nat) (b : Byte) : (s.writeMem d b).v = s.v := rfl
@[simp] theorem State.writeMem_reg (s : State) (d : Nat) (b : Byte) (x : Reg) : (s.writeMem d b).reg x = s.reg x := rfl
@[simp] theorem State.writeMem_i (s : State) (d : Nat) (b : Byte) : (s.writeMem d b).i = s.i := rfl
@[simp] theorem State.writeMem_pc (s : State) (d : Nat) (b : Byte) : (s.writeMem d b).pc = s.pc := rfl
@[simp] theorem State.writeMem_sp (s : State) (d : Nat) (b : Byte) : (s.writeMem d b).sp = s.sp := rfl
@[simp] theorem State.writeMem_stack (s : State) (d : Nat) (b : Byte) : (s.writeMem d b).stack = s.stack := rfl
@[simp] theorem State.writeMem_dt (s : State) (d : Nat) (b : Byte) : (s.writeMem d b).dt = s.dt := rfl
@[simp] theorem State.writeMem_mem (s : State) (d : Nat) (b : Byte) : (s.writeMem d b).mem = s.mem.write s.config d b := rfl
@[simp] theorem State.writeMem_fb (s : State) (d : Nat) (b : Byte) : (s.writeMem d b).fb = s.fb := rfl
@[simp] theorem State.writeMem_cell (s : State) (d : Nat) (b : Byte) (r : Fin 32) (c : Fin 64) : (s.writeMem d b).cell r c = s.cell r c := rfl
@[simp] theorem State.writeMem_key (s : State) (d : Nat) (b : Byte) : (s.writeMem d b).key = s.key := rfl
@[simp] theorem State.writeMem_keyDown (s : State) (d : Nat) (b : Byte) (k : Fin 16) : (s.writeMem d b).keyDown k = s.keyDown k := rfl
@[simp] theorem State.writeMem_redraw (s : State) (d : Nat) (b : Byte) : (s.writeMem d b).redraw = s.redraw := rfl
@[simp] theorem State.writeMem_status (s : State) (d : Nat) (b : Byte) : (s.writeMem d b).status = s.status := rfl
@[simp] theorem State.writeMem_draws (s : State) (d : Nat) (b : Byte) : (s.writeMem d b).draws = s.draws := rfl
@[simp] theorem State.writeMem_config (s : State) (d : Nat) (b : Byte) : (s.writeMem d b).config = s.config := rfl

/-! ## drawRandom -/

@[simp] theorem State.drawRandom_v (s : State) : (s.drawRandom).v = s.v := rfl
@[simp] theorem State.drawRandom_reg (s : State) (x : Reg) : (s.drawRandom).reg x = s.reg x := rfl
@[simp] theorem State.drawRandom_i (s : State) : (s.drawRandom).i = s.i := rfl
@[simp] theorem State.drawRandom_pc (s : State) : (s.drawRandom).pc = s.pc := rfl
@[simp] theorem State.drawRandom_sp (s : State) : (s.drawRandom).sp = s.sp := rfl
@[simp] theorem State.drawRandom_stack (s : State) : (s.drawRandom).stack = s.stack := rfl
@[simp] theorem State.drawRandom_dt (s : State) : (s.drawRandom).dt = s.dt := rfl
@[simp] theorem State.drawRandom_mem (s : State) : (s.drawRandom).mem = s.mem := rfl
@[simp] theorem State.drawRandom_readMem (s : State) (a : Nat) : (s.drawRandom).readMem a = s.readMem a := rfl
@[simp] theorem State.drawRandom_fb (s : State) : (s.drawRandom).fb = s.fb := rfl
@[simp] theorem State.drawRandom_cell (s : State) (r : Fin 32) (c : Fin 64) : (s.drawRandom).cell r c = s.cell r c := rfl
@[simp] theorem State.drawRandom_key (s : State) : (s.drawRandom).key = s.key := rfl
@[simp] theorem State.drawRandom_keyDown (s : State) (k : Fin 16) : (s.drawRandom).keyDown k = s.keyDown k := rfl
@[simp] theorem State.drawRandom_redraw (s : State) : (s.drawRandom).redraw = s.redraw := rfl
@[simp] theorem State.drawRandom_status (s : State) : (s.drawRandom).status = s.status := rfl
@[simp] theorem State.drawRandom_draws (s : State) : (s.drawRandom).draws = s.draws + 1 := rfl
@[simp] theorem State.drawRandom_config (s : State) : (s.drawRandom).config = s.config := rfl

/-! ## paint -/

@[simp] theorem State.paint_v (s : State) (f : Framebuffer) : (s.paint f).v = s.v := rfl
@[simp] theorem State.paint_reg (s : State) (f : Framebuffer) (x : Reg) : (s.paint f).reg x = s.reg x := rfl
@[simp] theorem State.paint_i (s : State) (f : Framebuffer) : (s.paint f).i = s.i := rfl
@[simp] theorem State.paint_pc (s : State) (f : Framebuffer) : (s.paint f).pc = s.pc := rfl
@[simp] theorem State.paint_sp (s : State) (f : Framebuffer) : (s.paint f).sp = s.sp := rfl
@[simp] theorem State.paint_stack (s : State) (f : Framebuffer) : (s.paint f).stack = s.stack := rfl
@[simp] theorem State.paint_dt (s : State) (f : Framebuffer) : (s.paint f).dt = s.dt := rfl
@[simp] theorem State.paint_mem (s : State) (f : Framebuffer) : (s.paint f).mem = s.mem := rfl
@[simp] theorem State.paint_readMem (s : State) (f : Framebuffer) (a : Nat) : (s.paint f).readMem a = s.readMem a := rfl
@[simp] theorem State.paint_fb (s : State) (f : Framebuffer) : (s.paint f).fb = f := rfl
@[simp] theorem State.paint_key (s : State) (f : Framebuffer) : (s.paint f).key = s.key := rfl
@[simp] theorem State.paint_keyDown (s : State) (f : Framebuffer) (k : Fin 16) : (s.paint f).keyDown k = s.keyDown k := rfl
@[simp] theorem State.paint_redraw (s : State) (f : Framebuffer) : (s.paint f).redraw = true := rfl
@[simp] theorem State.paint_status (s : State) (f : Framebuffer) : (s.paint f).status = s.status := rfl
@[simp] theorem State.paint_draws (s : State) (f : Framebuffer) : (s.paint f).draws = s.draws := rfl
@[simp] theorem State.paint_config (s : State) (f : Framebuffer) : (s.paint f).config = s.config := rfl

/-! ## beginStep -/

@[simp] theorem State.beginStep_v (s : State) : (s.beginStep).v = s.v := rfl
@[simp] theorem State.beginStep_reg (s : State) (x : Reg) : (s.beginStep).reg x = s.reg x := rfl
@[simp] theorem State.beginStep_i (s : State) : (s.beginStep).i = s.i := rfl
@[simp] theorem State.beginStep_pc (s : State) : (s.beginStep).pc = s.pc := rfl
@[simp] theorem State.beginStep_sp (s : State) : (s.beginStep).sp = s.sp := rfl
@[simp] theorem State.beginStep_stack (s : State) : (s.beginStep).stack = s.stack := rfl
@[simp] theorem State.beginStep_dt (s : State) : (s.beginStep).dt = s.dt := rfl
@[simp] theorem State.beginStep_mem (s : State) : (s.beginStep).mem = s.mem := rfl
@[simp] theorem State.beginStep_readMem (s : State) (a : Nat) : (s.beginStep).readMem a = s.readMem a := rfl
@[simp] theorem State.beginStep_fb (s : State) : (s.beginStep).fb = s.fb := rfl
@[simp] theorem State.beginStep_cell (s : State) (r : Fin 32) (c : Fin 64) : (s.beginStep).cell r c = s.cell r c := rfl
@[simp] theorem State.beginStep_key (s : State) : (s.beginStep).key = s.key := rfl
@[simp] theorem State.beginStep_keyDown (s : State) (k : Fin 16) : (s.beginStep).keyDown k = s.keyDown k := rfl
@[simp] theorem State.beginStep_redraw (s : State) : (s.beginStep).redraw = s.redraw := rfl
@[simp] theorem State.beginStep_status (s : State) : (s.beginStep).status = .ok := rfl
@[simp] theorem State.beginStep_draws (s : State) : (s.beginStep).draws = s.draws := rfl
@[simp] theorem State.beginStep_config (s : State) : (s.beginStep).config = s.config := rfl

/-! ## setFlag -/

@[simp] theorem State.setFlag_i (s : State) (q : Bool) : (s.setFlag q).i = s.i := rfl
@[simp] theorem State.setFlag_pc (s : State) (q : Bool) : (s.setFlag q).pc = s.pc := rfl
@[simp] theorem State.setFlag_sp (s : State) (q : Bool) : (s.setFlag q).sp = s.sp := rfl
@[simp] theorem State.setFlag_stack (s : State) (q : Bool) : (s.setFlag q).stack = s.stack := rfl
@[simp] theorem State.setFlag_dt (s : State) (q : Bool) : (s.setFlag q).dt = s.dt := rfl
@[simp] theorem State.setFlag_mem (s : State) (q : Bool) : (s.setFlag q).mem = s.mem := rfl
@[simp] theorem State.setFlag_readMem (s : State) (q : Bool) (a : Nat) : (s.setFlag q).readMem a = s.readMem a := rfl
@[simp] theorem State.setFlag_fb (s : State) (q : Bool) : (s.setFlag q).fb = s.fb := rfl
@[simp] theorem State.setFlag_cell (s : State) (q : Bool) (r : Fin 32) (c : Fin 64) : (s.setFlag q).cell r c = s.cell r c := rfl
@[simp] theorem State.setFlag_key (s : State) (q : Bool) : (s.setFlag q).key = s.key := rfl
@[simp] theorem State.setFlag_keyDown (s : State) (q : Bool) (k : Fin 16) : (s.setFlag q).keyDown k = s.keyDown k := rfl
@[simp] theorem State.setFlag_redraw (s : State) (q : Bool) : (s.setFlag q).redraw = s.redraw := rfl
@[simp] theorem State.setFlag_status (s : State) (q : Bool) : (s.setFlag q).status = s.status := rfl
@[simp] theorem State.setFlag_draws (s : State) (q : Bool) : (s.setFlag q).draws = s.draws := rfl
@[simp] theorem State.setFlag_config (s : State) (q : Bool) : (s.setFlag q).config = s.config := rfl

/-! ## bumpI -/

@[simp] theorem State.bumpI_v (s : State) (y : Reg) : (s.bumpI y).v = s.v := rfl
@[simp] theorem State.bumpI_reg (s : State) (y : Reg) (x : Reg) : (s.bumpI y).reg x = s.reg x := rfl
@[simp] theorem State.bumpI_i (s : State) (y : Reg) : (s.bumpI y).i = s.i + BitVec.ofNat 16 (y.val + 1) := rfl
@[simp] theorem State.bumpI_pc (s : State) (y : Reg) : (s.bumpI y).pc = s.pc := rfl
@[simp] theorem State.bumpI_sp (s : State) (y : Reg) : (s.bumpI y).sp = s.sp := rfl
@[simp] theorem State.bumpI_stack (s : State) (y : Reg) : (s.bumpI y).stack = s.stack := rfl
@[simp] theorem State.bumpI_dt (s : State) (y : Reg) : (s.bumpI y).dt = s.dt := rfl
@[simp] theorem State.bumpI_mem (s : State) (y : Reg) : (s.bumpI y).mem = s.mem := rfl
@[simp] theorem State.bumpI_readMem (s : State) (y : Reg) (a : Nat) : (s.bumpI y).readMem a = s.readMem a := rfl
@[simp] theorem State.bumpI_fb (s : State) (y : Reg) : (s.bumpI y).fb = s.fb := rfl
@[simp] theorem State.bumpI_cell (s : State) (y : Reg) (r : Fin 32) (c : Fin 64) : (s.bumpI y).cell r c = s.cell r c := rfl
@[simp] theorem State.bumpI_key (s : State) (y : Reg) : (s.bumpI y).key = s.key := rfl
@[simp] theorem State.bumpI_keyDown (s : State) (y : Reg) (k : Fin 16) : (s.bumpI y).keyDown k = s.keyDown k := rfl
@[simp] theorem State.bumpI_redraw (s : State) (y : Reg) : (s.bumpI y).redraw = s.redraw := rfl
@[simp] theorem State.bumpI_status (s : State) (y : Reg) : (s.bumpI y).status = s.status := rfl
@[simp] theorem State.bumpI_draws (s : State) (y : Reg) : (s.bumpI y).draws = s.draws := rfl
@[simp] theorem State.bumpI_config (s : State) (y : Reg) : (s.bumpI y).config = s.config := rfl

/-! ## writeKeys -/

@[simp] theorem State.writeKeys_v (s : State) (ks : Keys) : (s.writeKeys ks).v = s.v := rfl
@[simp] theorem State.writeKeys_reg (s : State) (ks : Keys) (x : Reg) : (s.writeKeys ks).reg x = s.reg x := rfl
@[simp] theorem State.writeKeys_i (s : State) (ks : Keys) : (s.writeKeys ks).i = s.i := rfl
@[simp] theorem State.writeKeys_pc (s : State) (ks : Keys) : (s.writeKeys ks).pc = s.pc := rfl
@[simp] theorem State.writeKeys_sp (s : State) (ks : Keys) : (s.writeKeys ks).sp = s.sp := rfl
@[simp] theorem State.writeKeys_stack (s : State) (ks : Keys) : (s.writeKeys ks).stack = s.stack := rfl
@[simp] theorem State.writeKeys_dt (s : State) (ks : Keys) : (s.writeKeys ks).dt = s.dt := rfl
@[simp] theorem State.writeKeys_mem (s : State) (ks : Keys) : (s.writeKeys ks).mem = s.mem := rfl
@[simp] theorem State.writeKeys_readMem (s : State) (ks : Keys) (a : Nat) : (s.writeKeys ks).readMem a = s.readMem a := rfl
@[simp] theorem State.writeKeys_fb (s : State) (ks : Keys) : (s.writeKeys ks).fb = s.fb := rfl
@[simp] theorem State.writeKeys_cell (s : State) (ks : Keys) (r : Fin 32) (c : Fin 64) : (s.writeKeys ks).cell r c = s.cell r c := rfl
@[simp] theorem State.writeKeys_key (s : State) (ks : Keys) : (s.writeKeys ks).key = ks := rfl
@[simp] theorem State.writeKeys_redraw (s : State) (ks : Keys) : (s.writeKeys ks).redraw = s.redraw := rfl
@[simp] theorem State.writeKeys_status (s : State) (ks : Keys) : (s.writeKeys ks).status = s.status := rfl
@[simp] theorem State.writeKeys_draws (s : State) (ks : Keys) : (s.writeKeys ks).draws = s.draws := rfl
@[simp] theorem State.writeKeys_config (s : State) (ks : Keys) : (s.writeKeys ks).config = s.config := rfl

/-! ## clearRedraw -/

@[simp] theorem State.clearRedraw_v (s : State) : (s.clearRedraw).v = s.v := rfl
@[simp] theorem State.clearRedraw_reg (s : State) (x : Reg) : (s.clearRedraw).reg x = s.reg x := rfl
@[simp] theorem State.clearRedraw_i (s : State) : (s.clearRedraw).i = s.i := rfl
@[simp] theorem State.clearRedraw_pc (s : State) : (s.clearRedraw).pc = s.pc := rfl
@[simp] theorem State.clearRedraw_sp (s : State) : (s.clearRedraw).sp = s.sp := rfl
@[simp] theorem State.clearRedraw_stack (s : State) : (s.clearRedraw).stack = s.stack := rfl
@[simp] theorem State.clearRedraw_dt (s : State) : (s.clearRedraw).dt = s.dt := rfl
@[simp] theorem State.clearRedraw_mem (s : State) : (s.clearRedraw).mem = s.mem := rfl
@[simp] theorem State.clearRedraw_readMem (s : State) (a : Nat) : (s.clearRedraw).readMem a = s.readMem a := rfl
@[simp] theorem State.clearRedraw_fb (s : State) : (s.clearRedraw).fb = s.fb := rfl
@[simp] theorem State.clearRedraw_cell (s : State) (r : Fin 32) (c : Fin 64) : (s.clearRedraw).cell r c = s.cell r c := rfl
@[simp] theorem State.clearRedraw_key (s : State) : (s.clearRedraw).key = s.key := rfl
@[simp] theorem State.clearRedraw_keyDown (s : State) (k : Fin 16) : (s.clearRedraw).keyDown k = s.keyDown k := rfl
@[simp] theorem State.clearRedraw_redraw (s : State) : (s.clearRedraw).redraw = false := rfl
@[simp] theorem State.clearRedraw_status (s : State) : (s.clearRedraw).status = s.status := rfl
@[simp] theorem State.clearRedraw_draws (s : State) : (s.clearRedraw).draws = s.draws := rfl
@[simp] theorem State.clearRedraw_config (s : State) : (s.clearRedraw).config = s.config := rfl

/-! ## resetOp -/

@[simp] theorem State.resetOp_v (s : State) : s.resetOp.v = State.reset.v := rfl
@[simp] theorem State.resetOp_i (s : State) : s.resetOp.i = State.reset.i := rfl
@[simp] theorem State.resetOp_pc (s : State) : s.resetOp.pc = State.reset.pc := rfl
@[simp] theorem State.resetOp_sp (s : State) : s.resetOp.sp = State.reset.sp := rfl
@[simp] theorem State.resetOp_stack (s : State) : s.resetOp.stack = State.reset.stack := rfl
@[simp] theorem State.resetOp_dt (s : State) : s.resetOp.dt = State.reset.dt := rfl
@[simp] theorem State.resetOp_mem (s : State) : s.resetOp.mem = State.reset.mem := rfl
@[simp] theorem State.resetOp_fb (s : State) : s.resetOp.fb = State.reset.fb := rfl
@[simp] theorem State.resetOp_key (s : State) : s.resetOp.key = State.reset.key := rfl
@[simp] theorem State.resetOp_redraw (s : State) : s.resetOp.redraw = State.reset.redraw := rfl
@[simp] theorem State.resetOp_status (s : State) : s.resetOp.status = State.reset.status := rfl
@[simp] theorem State.resetOp_draws (s : State) : s.resetOp.draws = s.draws := rfl
@[simp] theorem State.resetOp_config (s : State) : s.resetOp.config = s.config := rfl
@[simp] theorem State.resetOp_reg (s : State) (x : Reg) : s.resetOp.reg x = 0 := by simp [State.reg, State.reset]
@[simp] theorem State.resetOp_cell (s : State) (r : Fin 32) (c : Fin 64) : s.resetOp.cell r c = false := by
  simp [State.cell, Framebuffer.cell, State.reset]
@[simp] theorem State.resetOp_keyDown (s : State) (k : Fin 16) : s.resetOp.keyDown k = false := by simp [State.keyDown, State.reset]

/-! ## The accessors an update does change -/

/-- A register write read back: the written register holds the byte, every other register its old value. -/
theorem State.reg_setReg (s : State) (y : Reg) (b : Byte) (x : Reg) :
    (s.setReg y b).reg x = if x = y then b else s.reg x := by
  by_cases h : x = y
  · subst h; simp [State.reg, State.setReg]
  · have h' : y.val ≠ x.val := fun e => h (Fin.ext e.symm)
    simp [State.reg, State.setReg, h, Vector.getElem_set_ne _ _ h']

@[simp] theorem State.reg_setReg_self (s : State) (y : Reg) (b : Byte) : (s.setReg y b).reg y = b := by
  simp [State.reg_setReg]

theorem State.reg_setReg_ne (s : State) {x y : Reg} (b : Byte) (h : x ≠ y) : (s.setReg y b).reg x = s.reg x := by
  simp [State.reg_setReg, h]

theorem State.reg_setFlag (s : State) (q : Bool) (x : Reg) :
    (s.setFlag q).reg x = if x = .vf then (if q then 1 else 0) else s.reg x := by
  simp only [State.setFlag, flagByte, State.reg_setReg]

@[simp] theorem State.paint_cell (s : State) (f : Framebuffer) (r : Fin 32) (c : Fin 64) : (s.paint f).cell r c = f.cell r c := rfl

@[simp] theorem State.writeKeys_keyDown (s : State) (ks : Keys) (k : Fin 16) : (s.writeKeys ks).keyDown k = ks[k] := rfl

@[simp] theorem State.writeMem_readMem (s : State) (d : Nat) (b : Byte) (a : Nat) :
    (s.writeMem d b).readMem a = (s.mem.write s.config d b).read s.config a := rfl

end Sys2Proof.Machine
end

