-- ==== Sys2Proof/Laws/Memory.lean ====
section
/-!
SUPPORT. The laws of memory: what a read after a write gives, that every operation keeps the canonical form, and the same for a row of
bytes.
-/
namespace Sys2Proof.Machine

/-! ## Lookup through the list operations -/

section Lookup
variable (c : Config)

theorem Memory.lookup_nil (a : Nat) : Memory.lookup [] c a = Memory.unlisted c a := rfl

theorem Memory.lookup_cons (d : Host.Cell) (m : Memory) (a : Nat) :
    Memory.lookup (d :: m) c a = if d.1 = a then d.2 else m.lookup c a := by
  by_cases h : d.1 = a <;> simp [Memory.lookup, h]

theorem Memory.lookup_insert (a : Nat) (b : Byte) (m : Memory) (d : Nat) (h : ∀ e ∈ m, e.1 ≠ a) :
    Memory.lookup (Memory.insert a b m) c d = if d = a then b else m.lookup c d := by
  induction m with
  | nil => simp only [Memory.insert, Memory.lookup_cons, eq_comm]
  | cons e es ih =>
    have he : e.1 ≠ a := h e (by simp)
    have hes : ∀ x ∈ es, x.1 ≠ a := fun x hx => h x (by simp [hx])
    by_cases q : d = a
    · subst q
      by_cases l : d < e.1
      · simp [Memory.insert, l, Memory.lookup_cons]
      · simp [Memory.insert, l, Memory.lookup_cons, he, ih hes]
    · by_cases l : a < e.1
      · simp [Memory.insert, l, Memory.lookup_cons, q, Ne.symm q]
      · simp [Memory.insert, l, Memory.lookup_cons, q, ih hes]

theorem Memory.lookup_filter (m : Memory) (a d : Nat) :
    Memory.lookup (m.filter (fun e => e.1 != a)) c d = if d = a then Memory.unlisted c a else m.lookup c d := by
  induction m with
  | nil => by_cases q : d = a <;> simp [Memory.lookup_nil, q]
  | cons e es ih =>
    by_cases he : e.1 = a
    · rw [List.filter_cons_of_neg (by simp [he]), ih, Memory.lookup_cons, he]
      by_cases q : d = a
      · simp [q]
      · simp [q, Ne.symm q]
    · rw [List.filter_cons_of_pos (by simp [he]), Memory.lookup_cons, ih, Memory.lookup_cons]
      by_cases q : d = a
      · subst q; simp [he]
      · simp [q]

theorem Memory.lookup_update (m : Memory) (a : Nat) (b : Byte) (d : Nat) :
    (m.update c a b).lookup c d = if d = a then b else m.lookup c d := by
  by_cases h : b = Memory.unlisted c a
  · simp only [Memory.update, h, if_true, Memory.lookup_filter]
  · have hf : ∀ e ∈ m.filter (fun e => e.1 != a), e.1 ≠ a := by simp
    simp only [Memory.update, h, if_false, Memory.lookup_insert _ _ _ _ _ hf, Memory.lookup_filter]
    split <;> simp_all

/-! ## Reads and writes -/

/-- A read after a write gives the written byte at the same address modulo 4096 and the old byte elsewhere. -/
theorem Memory.read_write (m : Memory) (d : Nat) (b : Byte) (a : Nat) :
    (m.write c d b).read c a = if a % 4096 = d % 4096 then b else m.read c a := by
  simp only [Memory.read, Memory.write, Memory.lookup_update]

@[simp] theorem Memory.read_mod (m : Memory) (a : Nat) : m.read c (a % 4096) = m.read c a := by
  simp [Memory.read]

/-- Memory with nothing listed reads as its reset content: the font in the font region. -/
theorem Memory.read_nil_font (k : Fin 80) : Memory.read [] c (c.fontBase.val + k.val) = c.fontTable[k] := by
  have := c.fontBase.isLt
  have hm : (c.fontBase.val + k.val) % 4096 = c.fontBase.val + k.val := by omega
  simp [Memory.read, Memory.lookup_nil, Memory.unlisted, hm]

/-- Memory with nothing listed reads as 0 outside the font region. -/
theorem Memory.read_nil_zero (a : Nat) (ha : a < 4096) (h : a < c.fontBase.val ∨ c.fontBase.val + 80 ≤ a) : Memory.read [] c a = 0 := by
  have hn : ¬(c.fontBase.val ≤ a ∧ a < c.fontBase.val + 80) := by omega
  rw [Memory.read, Nat.mod_eq_of_lt ha, Memory.lookup_nil, Memory.unlisted, dif_neg hn]

/-! ## The canonical form -/

theorem Memory.wf_iff (m : Memory) :
    m.wf c = true ↔ m.Pairwise (fun d e => d.1 < e.1) ∧ ∀ d ∈ m, d.1 < 4096 ∧ d.2 ≠ Memory.unlisted c d.1 := by
  simp [Memory.wf]

theorem Memory.mem_insert (a : Nat) (b : Byte) (m : Memory) (d : Host.Cell) (h : d ∈ Memory.insert a b m) : d = (a, b) ∨ d ∈ m := by
  induction m with
  | nil => simpa [Memory.insert] using h
  | cons e es ih =>
    by_cases l : a < e.1
    · simpa [Memory.insert, l] using h
    · rcases List.mem_cons.1 (by simpa [Memory.insert, l] using h) with h | h
      · simp [h]
      · rcases ih h with h | h <;> simp [h]

theorem Memory.insert_sorted (a : Nat) (b : Byte) (m : Memory) (hs : m.Pairwise (fun d e => d.1 < e.1)) (hn : ∀ d ∈ m, d.1 ≠ a) :
    (Memory.insert a b m).Pairwise (fun d e => d.1 < e.1) := by
  induction m with
  | nil => simp [Memory.insert]
  | cons e es ih =>
    obtain ⟨he, hes⟩ := List.pairwise_cons.1 hs
    by_cases l : a < e.1
    · simp only [Memory.insert, l, if_true, List.pairwise_cons]
      refine ⟨fun d hd => ?_, he, hes⟩
      rcases List.mem_cons.1 hd with rfl | hd
      · exact l
      · exact lt_trans l (he d hd)
    · simp only [Memory.insert, l, if_false, List.pairwise_cons]
      refine ⟨fun d hd => ?_, ih hes fun x hx => hn x (by simp [hx])⟩
      have hea : e.1 ≠ a := hn e (by simp)
      rcases Memory.mem_insert a b es d hd with rfl | hd
      · show e.1 < a
        omega
      · exact he d hd

/-- A write keeps the canonical form. -/
theorem Memory.write_wf (m : Memory) (d : Nat) (b : Byte) (h : m.wf c = true) : (m.write c d b).wf c = true := by
  rw [Memory.wf_iff] at h ⊢
  obtain ⟨hs, hc⟩ := h
  have hs' := hs.filter (fun e => e.1 != d % 4096)
  simp only [Memory.write, Memory.update]
  split
  · exact ⟨hs', fun e hm => hc e (List.mem_of_mem_filter hm)⟩
  · rename_i hb
    refine ⟨Memory.insert_sorted _ _ _ hs' (by simp), fun e hm => ?_⟩
    rcases Memory.mem_insert _ _ _ _ hm with rfl | hm
    · exact ⟨Nat.mod_lt _ (by decide), hb⟩
    · exact hc e (List.mem_of_mem_filter hm)

/-- Memory with nothing listed is in canonical form, whatever the parameters. -/
theorem Memory.nil_wf : Memory.wf [] c = true := rfl

end Lookup

/-- Memory is in canonical form at reset. -/
theorem State.reset_mem_wf : State.reset.mem.wf State.reset.config = true := rfl

/-! ## Rows of bytes -/

/-- A row of writes changes memory and nothing else. -/
theorem State.writeBytes_eq (s : State) (a : Nat) (bs : List Byte) :
    s.writeBytes a bs = { s with mem := (s.writeBytes a bs).mem } := by
  induction bs generalizing s a with
  | nil => rfl
  | cons b bs ih => exact ih (s.writeMem a b) (a + 1)

@[simp] theorem State.writeBytes_v (s : State) (a : Nat) (bs : List Byte) : (s.writeBytes a bs).v = s.v := by rw [State.writeBytes_eq]
@[simp] theorem State.writeBytes_i (s : State) (a : Nat) (bs : List Byte) : (s.writeBytes a bs).i = s.i := by rw [State.writeBytes_eq]
@[simp] theorem State.writeBytes_pc (s : State) (a : Nat) (bs : List Byte) : (s.writeBytes a bs).pc = s.pc := by rw [State.writeBytes_eq]
@[simp] theorem State.writeBytes_sp (s : State) (a : Nat) (bs : List Byte) : (s.writeBytes a bs).sp = s.sp := by rw [State.writeBytes_eq]
@[simp] theorem State.writeBytes_stack (s : State) (a : Nat) (bs : List Byte) : (s.writeBytes a bs).stack = s.stack := by
  rw [State.writeBytes_eq]
@[simp] theorem State.writeBytes_dt (s : State) (a : Nat) (bs : List Byte) : (s.writeBytes a bs).dt = s.dt := by rw [State.writeBytes_eq]
@[simp] theorem State.writeBytes_fb (s : State) (a : Nat) (bs : List Byte) : (s.writeBytes a bs).fb = s.fb := by rw [State.writeBytes_eq]
@[simp] theorem State.writeBytes_key (s : State) (a : Nat) (bs : List Byte) : (s.writeBytes a bs).key = s.key := by rw [State.writeBytes_eq]
@[simp] theorem State.writeBytes_redraw (s : State) (a : Nat) (bs : List Byte) : (s.writeBytes a bs).redraw = s.redraw := by
  rw [State.writeBytes_eq]
@[simp] theorem State.writeBytes_status (s : State) (a : Nat) (bs : List Byte) : (s.writeBytes a bs).status = s.status := by
  rw [State.writeBytes_eq]
@[simp] theorem State.writeBytes_draws (s : State) (a : Nat) (bs : List Byte) : (s.writeBytes a bs).draws = s.draws := by
  rw [State.writeBytes_eq]
@[simp] theorem State.writeBytes_config (s : State) (a : Nat) (bs : List Byte) : (s.writeBytes a bs).config = s.config := by
  rw [State.writeBytes_eq]
@[simp] theorem State.writeBytes_reg (s : State) (a : Nat) (bs : List Byte) (x : Reg) : (s.writeBytes a bs).reg x = s.reg x := by
  simp [State.reg]
@[simp] theorem State.writeBytes_cell (s : State) (a : Nat) (bs : List Byte) (r : Fin 32) (c : Fin 64) :
    (s.writeBytes a bs).cell r c = s.cell r c := by simp [State.cell]
@[simp] theorem State.writeBytes_keyDown (s : State) (a : Nat) (bs : List Byte) (k : Fin 16) :
    (s.writeBytes a bs).keyDown k = s.keyDown k := by simp [State.keyDown]

theorem State.readMem_writeMem (s : State) (d : Nat) (b : Byte) (a : Nat) :
    (s.writeMem d b).readMem a = if a % 4096 = d % 4096 then b else s.readMem a := Memory.read_write _ _ _ _ _

/-- An address outside the row of written bytes, modulo 4096, reads as before. -/
theorem State.readMem_writeBytes_outside (s : State) (d : Nat) (bs : List Byte) (a : Nat)
    (h : ∀ k < bs.length, a % 4096 ≠ (d + k) % 4096) : (s.writeBytes d bs).readMem a = s.readMem a := by
  induction bs generalizing s d with
  | nil => rfl
  | cons b bs ih =>
    have h0 : a % 4096 ≠ d % 4096 := by simpa using h 0 (by simp)
    have hs : ∀ k < bs.length, a % 4096 ≠ (d + 1 + k) % 4096 := fun k hk => by
      simpa [Nat.add_assoc, Nat.add_comm 1 k] using h (k + 1) (by simpa using hk)
    rw [State.writeBytes, ih _ _ hs, State.readMem_writeMem, if_neg h0]

/-- The `k`-th byte of a row of at most 4096 written bytes reads back. -/
theorem State.readMem_writeBytes_inside (s : State) (d : Nat) (bs : List Byte) (hl : bs.length ≤ 4096) (k : Nat) (hk : k < bs.length) :
    (s.writeBytes d bs).readMem (d + k) = bs[k] := by
  induction bs generalizing s d k with
  | nil => simp at hk
  | cons b bs ih =>
    cases k with
    | zero =>
      have ho : ∀ j < bs.length, d % 4096 ≠ (d + 1 + j) % 4096 := fun j hj => by
        simp only [List.length_cons] at hl
        omega
      rw [Nat.add_zero, State.writeBytes, State.readMem_writeBytes_outside _ _ _ _ ho, State.readMem_writeMem]
      simp
    | succ k =>
      have := ih (s.writeMem d b) (d + 1) (by simp at hl; omega) k (by simpa using hk)
      rw [show d + (k + 1) = d + 1 + k by omega]
      simpa [State.writeBytes] using this

/-- A row of writes keeps the canonical form. -/
theorem State.writeBytes_wf (s : State) (d : Nat) (bs : List Byte) (h : s.mem.wf s.config = true) :
    (s.writeBytes d bs).mem.wf s.config = true := by
  induction bs generalizing s d with
  | nil => exact h
  | cons b bs ih => exact ih (s.writeMem d b) _ (Memory.write_wf _ _ _ _ h)

end Sys2Proof.Machine
end

