-- ==== Sys2Proof/Laws/Ops.lean ====
section
/-!
SUPPORT. What each shared operation can do, said once: the stack, the flag-first order, the register ranges, the first pressed key, the
fetch.
-/
namespace Sys2Proof.Machine

/-! ## The stack -/

/-- What `Push` does: on a full stack it only raises StackOverflow, else it writes the entry at `sp` and increments `sp`. -/
theorem State.push_cases (s : State) (w : Word) :
    (s.sp.val = 16 ∧ s.push w = s.raise .stackOverflow) ∨
      ∃ h : s.sp.val < 16, s.push w = { s with stack := s.stack.set s.sp.val w h, sp := ⟨s.sp.val + 1, by omega⟩ } := by
  by_cases h : s.sp.val < 16
  · exact .inr ⟨h, by simp [State.push, h]⟩
  · exact .inl ⟨by omega, by simp [State.push, h]⟩

/-- What `Pop` does: on an empty stack it raises StackUnderflow and answers the default, else it decrements `sp` and answers the entry there. -/
theorem State.pop_cases (s : State) :
    (s.sp.val = 0 ∧ s.pop = (s.config.stackPopDefault, s.raise .stackUnderflow)) ∨
      ∃ _ : s.sp.val ≠ 0, s.pop = (s.stack[s.sp.val - 1]'(by omega), { s with sp := ⟨s.sp.val - 1, by omega⟩ }) := by
  by_cases h : s.sp.val = 0
  · exact .inl ⟨h, by simp [State.pop, h]⟩
  · exact .inr ⟨h, by simp [State.pop, h]⟩

/-! ## Registers -/

/-- The registers after the flag-first order: Vx holds the result on the re-read operands, VF the flag unless it is Vx, the rest is kept. -/
theorem State.reg_flagThenResult (s : State) (x y : Reg) (f : Bool) (op : Byte → Byte → Byte) (r : Reg) :
    (s.flagThenResult x y f op).reg r =
      if r = x then op ((s.setFlag f).reg x) ((s.setFlag f).reg y) else (s.setFlag f).reg r := by
  simp only [State.flagThenResult, State.reg_setReg]

/-- The flag-first order changes registers and nothing else. -/
theorem State.flagThenResult_eq (s : State) (x y : Reg) (f : Bool) (op : Byte → Byte → Byte) :
    s.flagThenResult x y f op = { s with v := (s.flagThenResult x y f op).v } := rfl

theorem mem_regsUpTo (x k : Reg) : k ∈ regsUpTo x ↔ k ≤ x := by simp [regsUpTo]

/-- `regsUpTo x` is 0, 1, ..., x. -/
theorem regsUpTo_getElem? (x : Reg) (k : Nat) (h : k ≤ x.val) : (regsUpTo x)[k]? = some ⟨k, by omega⟩ := by
  have := (by decide : ∀ x : Fin 16, ∀ k : Fin 16, k ≤ x → (regsUpTo x)[k.val]? = some k)
  exact this x ⟨k, by omega⟩ h

theorem regsUpTo_length (x : Reg) : (regsUpTo x).length = x.val + 1 := by
  have := (by decide : ∀ x : Fin 16, (regsUpTo x).length = x.val + 1)
  exact this x

/-- A row of register writes: a register in the list holds its new byte, every other register its old one, and nothing else changes. -/
theorem State.foldl_setReg (f : Reg → Byte) (ks : List Reg) (s : State) :
    (∀ r, (ks.foldl (fun t k => t.setReg k (f k)) s).reg r = if r ∈ ks then f r else s.reg r) ∧
      ks.foldl (fun t k => t.setReg k (f k)) s = { s with v := (ks.foldl (fun t k => t.setReg k (f k)) s).v } := by
  induction ks generalizing s with
  | nil => simp
  | cons k ks ih =>
    obtain ⟨h1, h2⟩ := ih (s.setReg k (f k))
    refine ⟨fun r => ?_, h2⟩
    rw [List.foldl_cons, h1, State.reg_setReg]
    by_cases e : r = k
    · subst e; simp
    · simp [e]

/-! ## Keys -/

/-- No first key exactly when no key is pressed. -/
theorem State.firstKey_none (s : State) : s.firstKey = none ↔ ∀ k, s.keyDown k = false := by
  simp [State.firstKey]

/-- The first key is pressed, and no lower key is. -/
theorem State.firstKey_some (s : State) (k : Fin 16) (h : s.firstKey = some k) :
    s.keyDown k = true ∧ ∀ j, j < k → s.keyDown j = false := by
  refine ⟨by simpa using List.find?_some h, fun j hj => ?_⟩
  obtain ⟨-, as, bs, hl, ha⟩ := List.find?_eq_some_iff_append.1 h
  have hjm : j ∈ as ++ k :: bs := hl ▸ List.mem_finRange j
  rcases List.mem_append.1 hjm with hm | hm
  · simpa using ha j hm
  · exfalso
    have hs : (as ++ k :: bs).Pairwise (· < ·) := hl ▸ List.pairwise_lt_finRange 16
    have hs' := (List.pairwise_append.1 hs).2.1
    rcases List.mem_cons.1 hm with rfl | hm
    · exact absurd hj (lt_irrefl _)
    · exact absurd hj (lt_asymm (List.rel_of_pairwise_cons hs' hm))

/-! ## Bytes and the fetch -/

@[simp] theorem State.readBytes_length (s : State) (a n : Nat) : (s.readBytes a n).length = n := by simp [State.readBytes]

@[simp] theorem State.readBytes_getElem (s : State) (a n k : Nat) (h : k < (s.readBytes a n).length) :
    (s.readBytes a n)[k] = s.readMem (a + k) := by simp [State.readBytes]

@[simp] theorem State.beginStep_fetch (s : State) : s.beginStep.fetch = s.fetch := rfl
@[simp] theorem State.beginStep_outOfBounds (s : State) : s.beginStep.outOfBounds = s.outOfBounds := rfl

/-- An opcode placed where a step fetches is what the step fetches. -/
theorem State.fetch_placeOpcode (s : State) (op : Word) : (s.placeOpcode op).fetch = op := by
  unfold State.placeOpcode
  generalize (if s.outOfBounds = true then s.setPc 0x200 else s) = t
  have hl : (opcodeBytes op).length ≤ 4096 := by simp [opcodeBytes]
  have h0 := State.readMem_writeBytes_inside t t.pc.toNat (opcodeBytes op) hl 0 (by simp [opcodeBytes])
  have h1 := State.readMem_writeBytes_inside t t.pc.toNat (opcodeBytes op) hl 1 (by simp [opcodeBytes])
  simp only [Nat.add_zero] at h0
  simp only [State.fetch, State.readWord, State.writeBytes_pc, h0, h1]
  exact opcodeOf_opcodeBytes op

end Sys2Proof.Machine
end

