-- ==== Sys2Proof/Laws/Draw.lean ====
section
/-!
SUPPORT. The rasterizer in closed form: after a draw a cell has changed exactly when the sprite has a 1 bit there, and the collision flag says
whether such a cell was set before.
-/
namespace Sys2Proof.Machine

theorem Framebuffer.cell_toggle (f : Framebuffer) (row row' : Fin 32) (col col' : Fin 64) :
    (f.toggle row col).cell row' col' = if row' = row ∧ col' = col then !f.cell row col else f.cell row' col' := by
  simp only [Framebuffer.cell, Framebuffer.toggle, Vector.getElem_set, Fin.val_eq_val]
  by_cases hr : row = row'
  · subst hr
    by_cases hc : col = col'
    · subst hc; simp
    · simp [hc, Ne.symm hc, Fin.val_eq_val]
  · simp [hr, Ne.symm hr]

@[simp] theorem Framebuffer.cell_clear (row : Fin 32) (col : Fin 64) : Framebuffer.clear.cell row col = false := by
  simp [Framebuffer.cell, Framebuffer.clear]

/-- A draw step XORs the set of cells `on` into the framebuffer `f` and reports whether one of them was set. -/
def Xors (on : Fin 32 → Fin 64 → Bool) (f : Framebuffer) (p : Framebuffer × Bool) (q : Bool) : Prop :=
  (∀ r c, p.1.cell r c = (f.cell r c ^^ on r c)) ∧ (p.2 = true ↔ q = true ∨ ∃ r c, on r c = true ∧ f.cell r c = true)

theorem Xors.trans {on on' : Fin 32 → Fin 64 → Bool} {f : Framebuffer} {q : Bool} {p p' : Framebuffer × Bool}
    (h : Xors on f p q) (h' : Xors on' p.1 p' p.2) (hd : ∀ r c, ¬(on r c = true ∧ on' r c = true)) :
    Xors (fun r c => on r c || on' r c) f p' q := by
  refine ⟨fun r c => ?_, ?_⟩
  · rw [h'.1, h.1]
    have := hd r c
    cases ho : on r c <;> cases ho' : on' r c <;> simp_all
  · rw [h'.2, h.2]
    constructor
    · rintro ((hq | ⟨r, c, h1, h2⟩) | ⟨r, c, h1, h2⟩)
      · exact .inl hq
      · exact .inr ⟨r, c, by simp [h1], h2⟩
      · refine .inr ⟨r, c, by simp [h1], ?_⟩
        rw [h.1] at h2
        have := hd r c
        cases ho : on r c <;> simp_all
    · rintro (hq | ⟨r, c, h1, h2⟩)
      · exact .inl (.inl hq)
      · rcases Bool.or_eq_true_iff.1 h1 with h1 | h1
        · exact .inl (.inr ⟨r, c, h1, h2⟩)
        · refine .inr ⟨r, c, h1, ?_⟩
          rw [h.1]
          have := hd r c
          cases ho : on r c <;> simp_all

theorem Xors.nothing (f : Framebuffer) (q : Bool) : Xors (fun _ _ => false) f (f, q) q := by
  simp [Xors]

theorem drawPixel_xors (p : Framebuffer × Bool) (row : Fin 32) (col : Fin 64) (on : Bool) :
    Xors (fun r c => on && decide (r = row) && decide (c = col)) p.1 (drawPixel p row col on) p.2 := by
  cases on
  · simp [drawPixel, Xors]
  · refine ⟨fun r c => ?_, ?_⟩
    · by_cases h : r = row ∧ c = col
      · obtain ⟨rfl, rfl⟩ := h
        simp [drawPixel, Framebuffer.cell_toggle]
      · simp only [drawPixel, if_true, Framebuffer.cell_toggle, h, if_false]
        rcases not_and_or.1 h with h | h <;> simp [h]
    · simp [drawPixel]

/-- The sprite byte `b` at row `row`, column `vx`, has a 1 bit at column `c` among its first `n` columns. -/
def rowBit (n : Nat) (row : Fin 32) (vx : Nat) (b : Byte) (r : Fin 32) (c : Fin 64) : Bool :=
  decide (r = row) && ((List.range n).any fun k => b.getLsbD (7 - k) && decide (c = Fin.ofNat 64 (vx + k)))

theorem drawRow_xors_aux (p : Framebuffer × Bool) (row : Fin 32) (vx : Nat) (b : Byte) (n : Nat) (hn : n ≤ 8) :
    Xors (rowBit n row vx b) p.1
      ((List.range n).foldl (fun q c => drawPixel q row (Fin.ofNat 64 (vx + c)) (b.getLsbD (7 - c))) p) p.2 := by
  induction n with
  | zero =>
    have : rowBit 0 row vx b = fun _ _ => false := by funext r c; simp [rowBit]
    rw [this]
    exact Xors.nothing _ _
  | succ n ih =>
    rw [List.range_succ, List.foldl_append]
    have h := (ih (by omega)).trans (drawPixel_xors _ row (Fin.ofNat 64 (vx + n)) (b.getLsbD (7 - n))) ?_
    · have e : rowBit (n + 1) row vx b = fun r c => rowBit n row vx b r c ||
          (b.getLsbD (7 - n) && decide (r = row) && decide (c = Fin.ofNat 64 (vx + n))) := by
        funext r c
        simp only [rowBit, List.range_succ, List.any_append, List.any_cons, List.any_nil, Bool.or_false, Bool.and_or_distrib_left]
        congr 1
        cases b.getLsbD (7 - n) <;> cases decide (r = row) <;> simp
      rw [e]
      exact h
    · rintro r c ⟨h1, h2⟩
      simp only [rowBit, Bool.and_eq_true, decide_eq_true_eq, List.any_eq_true, List.mem_range] at h1 h2
      obtain ⟨-, k, hk, -, hc⟩ := h1
      have : (vx + k) % 64 = (vx + n) % 64 := by
        have := congrArg Fin.val (hc.symm.trans h2.2)
        simpa using this
      omega

theorem drawRow_xors (p : Framebuffer × Bool) (row : Fin 32) (vx : Nat) (b : Byte) :
    Xors (rowBit 8 row vx b) p.1 (drawRow p row vx b) p.2 := drawRow_xors_aux p row vx b 8 (le_refl 8)

/-- The sprite of the bytes `bs` at column `vx`, row `vy`, has a 1 bit at the cell. -/
def spriteBit (vx vy : Nat) : List Byte → Fin 32 → Fin 64 → Bool
  | [], _, _ => false
  | b :: bs, r, c => rowBit 8 (Fin.ofNat 32 vy) vx b r c || spriteBit vx (vy + 1) bs r c

/-- A sprite has a 1 bit at a cell exactly when some row `k` and column `j` of it land there with a 1 bit. -/
theorem spriteBit_iff (vx vy : Nat) (bs : List Byte) (r : Fin 32) (c : Fin 64) :
    spriteBit vx vy bs r c = true ↔ ∃ k, ∃ h : k < bs.length, ∃ j < 8,
      r.val = (vy + k) % 32 ∧ c.val = (vx + j) % 64 ∧ bs[k].getLsbD (7 - j) = true := by
  induction bs generalizing vy with
  | nil => simp [spriteBit]
  | cons b bs ih =>
    simp only [spriteBit, Bool.or_eq_true, ih, rowBit, Bool.and_eq_true, decide_eq_true_eq, List.any_eq_true, List.mem_range]
    constructor
    · rintro (⟨hr, j, hj, hb, hc⟩ | ⟨k, hk, j, hj, hr, hc, hb⟩)
      · exact ⟨0, by simp, j, hj, by simp [hr], by simp [hc], by simpa using hb⟩
      · exact ⟨k + 1, by simpa using hk, j, hj, by rw [hr]; congr 1; omega, hc, by simpa using hb⟩
    · rintro ⟨k, hk, j, hj, hr, hc, hb⟩
      cases k with
      | zero => exact .inl ⟨Fin.ext (by simpa using hr), j, hj, by simpa using hb, Fin.ext (by simpa using hc)⟩
      | succ k => exact .inr ⟨k, by simpa using hk, j, hj, by rw [hr]; congr 1; omega, hc, by simpa using hb⟩

/-- A draw of at most 32 rows XORs exactly the sprite's 1 bits and reports whether one of them met a set cell. -/
theorem drawSprite_xors (p : Framebuffer × Bool) (vx vy : Nat) (bs : List Byte) (hl : bs.length ≤ 32) :
    Xors (spriteBit vx vy bs) p.1 (drawSprite p vx vy bs) p.2 := by
  induction bs generalizing p vy with
  | nil =>
    have : spriteBit vx vy [] = fun _ _ => false := rfl
    rw [this]
    exact Xors.nothing _ _
  | cons b bs ih =>
    simp only [List.length_cons] at hl
    refine (drawRow_xors p (Fin.ofNat 32 vy) vx b).trans (ih _ _ (by omega)) ?_
    rintro r c ⟨h1, h2⟩
    obtain ⟨k, hk, -, -, hr, -, -⟩ := (spriteBit_iff _ _ _ _ _).1 h2
    simp only [rowBit, Bool.and_eq_true, decide_eq_true_eq] at h1
    have h0 : r.val = vy % 32 := by simp [h1.1]
    omega

end Sys2Proof.Machine
end

