-- ==== Sys2Proof/Laws/Step.lean ====
section
/-!
SUPPORT. What a step can do: every meaning answers a next state, and a step is one of three cases.
-/
namespace Sys2Proof.Machine

/-- Every meaning answers a next state. -/
theorem exec_next (i : Instr) (s : State) : ∃ t, exec i s = .next t := by
  cases i <;> first | exact ⟨_, rfl⟩ | skip
  case ldVxK x =>
    simp only [exec, execLdVxK]
    split <;> exact ⟨_, rfl⟩

/-- The three cases of a step: out of bounds, an instruction, an invalid opcode. -/
theorem step_cases (s : State) :
    (0x1000 ≤ s.pc.toNat ∧ step s = .next s.beginStep.stepOutOfBounds) ∨
      (s.pc.toNat < 0x1000 ∧ ∃ i, decode s.fetch = .ok i ∧ step s = exec i s.beginStep) ∨
      (s.pc.toNat < 0x1000 ∧ ∃ e, decode s.fetch = .error e ∧ step s = .next s.beginStep.stepInvalid) := by
  by_cases h : 0x1000 ≤ s.pc.toNat
  · exact .inl ⟨h, by simp [step, State.outOfBounds, h]⟩
  · have hp : s.pc.toNat < 0x1000 := by omega
    cases hd : decode s.fetch with
    | ok i => exact .inr (.inl ⟨hp, i, rfl, by simp [step, State.outOfBounds, h, hd]⟩)
    | error e => exact .inr (.inr ⟨hp, e, rfl, by simp [step, State.outOfBounds, h, hd]⟩)

/-- Every step answers a next state. -/
theorem step_next (s : State) : ∃ t, step s = .next t := by
  rcases step_cases s with ⟨-, h⟩ | ⟨-, i, -, h⟩ | ⟨-, e, -, h⟩
  · exact ⟨_, h⟩
  · rw [h]; exact exec_next i _
  · exact ⟨_, h⟩

end Sys2Proof.Machine
end

