-- ==== Sys2Proof/Laws/Frames.lean ====
section
/-!
SUPPORT. The parts of the state each instruction can change, in one table, and what follows for a step: a part that changed is in the table
of the instruction the step ran.
-/
namespace Sys2Proof.Machine

/-- The parts of the state an instruction can change. -/
def written : Instr → List Part
  | .cls => [.fb, .redraw, .pc]
  | .ret => [.sp, .pc, .status]
  | .call _ => [.sp, .stack, .pc, .status]
  | .jp _ | .seImm _ _ | .sneImm _ _ | .seReg _ _ | .sneReg _ _ | .jpV0 _ | .skp _ | .sknp _ | .ldStVx _ => [.pc]
  | .ldImm _ _ | .addImm _ _ | .ldReg _ _ | .orReg _ _ | .andReg _ _ | .xorReg _ _ | .addReg _ _ | .sub _ _ | .shr _ _ | .subn _ _
  | .shl _ _ | .ldVxDt _ | .ldVxK _ => [.regs, .pc]
  | .ldI _ | .ldF _ => [.index, .pc]
  | .rnd _ _ => [.regs, .pc, .draws]
  | .drw _ _ _ => [.regs, .pc, .fb, .redraw]
  | .ldDtVx _ => [.dt, .pc]
  | .addI _ | .loadRegs _ => [.regs, .index, .pc]
  | .ldB _ => [.mem, .pc]
  | .storeRegs _ => [.mem, .index, .pc]

theorem UnchangedBut.refl (ps : List Part) (s : State) : UnchangedBut ps s s := by
  intro p _
  cases p <;> simp [samePart]

/-- An instruction changes no part outside its row of the table. -/
theorem exec_unchanged (i : Instr) (s t : State) (e : exec i s = .next t) : UnchangedBut (written i) s t := by
  cases i
  case ret =>
    cases e
    rcases s.pop_cases with ⟨-, e⟩ | ⟨-, e⟩ <;> rw [e] <;> intro p hp <;> cases p <;> simp [samePart, written] at * <;> intros <;> rfl
  case call n =>
    cases e
    rcases s.push_cases (s.pc + 2) with ⟨_, e⟩ | ⟨_, e⟩ <;> rw [e] <;> intro p hp <;> cases p <;> simp [samePart, written] at * <;>
      intros <;> rfl
  case ldVxK x =>
    simp only [exec, execLdVxK] at e
    split at e <;> cases e <;> intro p hp <;> cases p <;> simp [samePart, written] at *
  case loadRegs x =>
    cases e
    rw [(State.foldl_setReg (fun k => s.readMem (s.dataAddr k.val)) (regsUpTo x) s).2]
    intro p hp
    cases p <;> simp [samePart, written] at * <;> intros <;> rfl
  all_goals (cases e; intro p hp; cases p <;> simp [samePart, written] at *)
  all_goals (intros; rfl)

theorem State.beginStep_unchanged (s : State) : UnchangedBut [.status] s s.beginStep := by
  intro p hp
  cases p <;> simp [samePart] at *

/-- A step runs an instruction, or changes at most the program counter and the status. -/
theorem step_runs_or_reports (s t : State) (e : step s = .next t) :
    (∃ i, Runs s i ∧ exec i s.beginStep = .next t) ∨ ((∀ i, ¬Runs s i) ∧ UnchangedBut [.pc, .status] s t) := by
  rcases step_cases s with ⟨h, e'⟩ | ⟨h, i, hd, e'⟩ | ⟨h, er, hd, e'⟩
  · rw [e'] at e
    cases e
    refine .inr ⟨fun i hi => absurd hi.1 (by omega), ?_⟩
    intro p hp
    cases p <;> simp [samePart, State.stepOutOfBounds] at *
  · rw [e'] at e
    exact .inl ⟨i, ⟨h, hd⟩, e⟩
  · rw [e'] at e
    cases e
    refine .inr ⟨fun i hi => (by cases hi.2.symm.trans hd), ?_⟩
    intro p hp
    cases p <;> simp [samePart, State.stepInvalid] at *

/-- A part other than `pc` and the status that a step changed is in the table of the instruction the step ran. -/
theorem step_changed_part (s t : State) (p : Part) (hp : p ≠ .pc) (hs : p ≠ .status) (e : step s = .next t) (h : ¬samePart s t p) :
    ∃ i, Runs s i ∧ exec i s.beginStep = .next t ∧ p ∈ written i := by
  rcases step_runs_or_reports s t e with ⟨i, hr, e'⟩ | ⟨-, u⟩
  · refine ⟨i, hr, e', ?_⟩
    by_contra q
    have a := exec_unchanged i _ t e' p q
    have b := s.beginStep_unchanged p (by simp [hs])
    apply h
    cases p <;> simp_all [samePart]
  · exact absurd (u p (by simp [hp, hs])) h

/-- A step runs one instruction at most. -/
theorem Runs.unique {s : State} {i j : Instr} (hi : Runs s i) (hj : Runs s j) : i = j := by
  cases hi.2.symm.trans hj.2
  rfl

end Sys2Proof.Machine
end

