-- ==== Sys2Proof/Laws/PerInstr.lean ====
section
/-!
SUPPORT. The family RowFit of statements about each instruction as syntax: the opcode the encoder writes for it fits the row of the opcode
map (spec/30_encoding.md R86) that stands for it, and no more.
-/
namespace Sys2Proof.Laws.RowFit

/-- The place in the opcode map of an instruction's row (spec/30_encoding.md R86, numbered from 0). -/
def place : Instr → Nat
  | .cls => 0
  | .ret => 1
  | .jp _ => 2
  | .call _ => 3
  | .seImm _ _ => 4
  | .sneImm _ _ => 5
  | .seReg _ _ => 6
  | .ldImm _ _ => 7
  | .addImm _ _ => 8
  | .ldReg _ _ => 9
  | .orReg _ _ => 10
  | .andReg _ _ => 11
  | .xorReg _ _ => 12
  | .addReg _ _ => 13
  | .sub _ _ => 14
  | .shr _ _ => 15
  | .subn _ _ => 16
  | .shl _ _ => 17
  | .sneReg _ _ => 18
  | .ldI _ => 19
  | .jpV0 _ => 20
  | .rnd _ _ => 21
  | .drw _ _ _ => 22
  | .skp _ => 23
  | .sknp _ => 24
  | .ldVxDt _ => 25
  | .ldVxK _ => 26
  | .ldDtVx _ => 27
  | .ldStVx _ => 28
  | .addI _ => 29
  | .ldF _ => 30
  | .ldB _ => 31
  | .storeRegs _ => 32
  | .loadRegs _ => 33

/-- The encoder's opcode of `i` fits the row of `i`. -/
def Statement (i : Instr) : Prop := ∃ r, opRows[place i]? = some r ∧ r.fits (encode i) = true

theorem cls : Statement .cls := ⟨_, rfl, by decide⟩

theorem ret : Statement .ret := ⟨_, rfl, by decide⟩

theorem jp (nnn : Addr) : Statement (.jp nnn) := ⟨_, rfl, by simp only [OpRow.fits, encode, wordA_mask]; decide⟩

theorem call (nnn : Addr) : Statement (.call nnn) := ⟨_, rfl, by simp only [OpRow.fits, encode, wordA_mask]; decide⟩

theorem seImm (x : Reg) (nn : Byte) : Statement (.seImm x nn) := ⟨_, rfl, by simp only [OpRow.fits, encode, wordXK_mask]; decide⟩

theorem sneImm (x : Reg) (nn : Byte) : Statement (.sneImm x nn) := ⟨_, rfl, by simp only [OpRow.fits, encode, wordXK_mask]; decide⟩

theorem seReg (x y : Reg) : Statement (.seReg x y) := ⟨_, rfl, by simp only [OpRow.fits, encode, wordXY_mask]; decide⟩

theorem ldImm (x : Reg) (nn : Byte) : Statement (.ldImm x nn) := ⟨_, rfl, by simp only [OpRow.fits, encode, wordXK_mask]; decide⟩

theorem addImm (x : Reg) (nn : Byte) : Statement (.addImm x nn) := ⟨_, rfl, by simp only [OpRow.fits, encode, wordXK_mask]; decide⟩

theorem ldReg (x y : Reg) : Statement (.ldReg x y) := ⟨_, rfl, by simp only [OpRow.fits, encode, wordXY_mask]; decide⟩

theorem orReg (x y : Reg) : Statement (.orReg x y) := ⟨_, rfl, by simp only [OpRow.fits, encode, wordXY_mask]; decide⟩

theorem andReg (x y : Reg) : Statement (.andReg x y) := ⟨_, rfl, by simp only [OpRow.fits, encode, wordXY_mask]; decide⟩

theorem xorReg (x y : Reg) : Statement (.xorReg x y) := ⟨_, rfl, by simp only [OpRow.fits, encode, wordXY_mask]; decide⟩

theorem addReg (x y : Reg) : Statement (.addReg x y) := ⟨_, rfl, by simp only [OpRow.fits, encode, wordXY_mask]; decide⟩

theorem sub (x y : Reg) : Statement (.sub x y) := ⟨_, rfl, by simp only [OpRow.fits, encode, wordXY_mask]; decide⟩

theorem shr (x y : Reg) : Statement (.shr x y) := ⟨_, rfl, by simp only [OpRow.fits, encode, wordXY_mask]; decide⟩

theorem subn (x y : Reg) : Statement (.subn x y) := ⟨_, rfl, by simp only [OpRow.fits, encode, wordXY_mask]; decide⟩

theorem shl (x y : Reg) : Statement (.shl x y) := ⟨_, rfl, by simp only [OpRow.fits, encode, wordXY_mask]; decide⟩

theorem sneReg (x y : Reg) : Statement (.sneReg x y) := ⟨_, rfl, by simp only [OpRow.fits, encode, wordXY_mask]; decide⟩

theorem ldI (nnn : Addr) : Statement (.ldI nnn) := ⟨_, rfl, by simp only [OpRow.fits, encode, wordA_mask]; decide⟩

theorem jpV0 (nnn : Addr) : Statement (.jpV0 nnn) := ⟨_, rfl, by simp only [OpRow.fits, encode, wordA_mask]; decide⟩

theorem rnd (x : Reg) (nn : Byte) : Statement (.rnd x nn) := ⟨_, rfl, by simp only [OpRow.fits, encode, wordXK_mask]; decide⟩

theorem drw (x y : Reg) (n : Nat) : Statement (.drw x y n) := ⟨_, rfl, by simp only [OpRow.fits, encode, wordXY_mask_family]; decide⟩

theorem skp (x : Reg) : Statement (.skp x) := ⟨_, rfl, by simp only [OpRow.fits, encode, wordXO_mask]; decide⟩

theorem sknp (x : Reg) : Statement (.sknp x) := ⟨_, rfl, by simp only [OpRow.fits, encode, wordXO_mask]; decide⟩

theorem ldVxDt (x : Reg) : Statement (.ldVxDt x) := ⟨_, rfl, by simp only [OpRow.fits, encode, wordXO_mask]; decide⟩

theorem ldVxK (x : Reg) : Statement (.ldVxK x) := ⟨_, rfl, by simp only [OpRow.fits, encode, wordXO_mask]; decide⟩

theorem ldDtVx (x : Reg) : Statement (.ldDtVx x) := ⟨_, rfl, by simp only [OpRow.fits, encode, wordXO_mask]; decide⟩

theorem ldStVx (x : Reg) : Statement (.ldStVx x) := ⟨_, rfl, by simp only [OpRow.fits, encode, wordXO_mask]; decide⟩

theorem addI (x : Reg) : Statement (.addI x) := ⟨_, rfl, by simp only [OpRow.fits, encode, wordXO_mask]; decide⟩

theorem ldF (x : Reg) : Statement (.ldF x) := ⟨_, rfl, by simp only [OpRow.fits, encode, wordXO_mask]; decide⟩

theorem ldB (x : Reg) : Statement (.ldB x) := ⟨_, rfl, by simp only [OpRow.fits, encode, wordXO_mask]; decide⟩

theorem storeRegs (x : Reg) : Statement (.storeRegs x) := ⟨_, rfl, by simp only [OpRow.fits, encode, wordXO_mask]; decide⟩

theorem loadRegs (x : Reg) : Statement (.loadRegs x) := ⟨_, rfl, by simp only [OpRow.fits, encode, wordXO_mask]; decide⟩

end Sys2Proof.Laws.RowFit
end

