-- ==== Sys2Proof/Tests/Slice0.lean ====
section
/-!
SUPPORT. The model's own tests: ill-formed terms the well-formedness check refuses, every constructor's decoding of a word written out from
spec/30_encoding.md R86, single steps with results taken from spec/95_test_vectors.md, and a witness for every statement that has
hypotheses or several clauses.
-/
namespace Sys2Proof.Tests
open Sys2Proof.Machine

/-! ## Well-formedness: the one check, at its boundary -/

theorem test_wellFormed_height_15 : Instr.WellFormed (.drw 0 0 15) := by decide
theorem test_wellFormed_refuses_height_16 : ¬Instr.WellFormed (.drw 0 0 16) := by decide

/-! ## Decoding, one word for each constructor (spec/30_encoding.md R82, R86) -/

theorem test_decode_cls : decodeTableWord 16 0x00E0 = some (.cls) := by decide
theorem test_decode_ret : decodeTableWord 16 0x00EE = some (.ret) := by decide
theorem test_decode_jp : decodeTableWord 16 0x1ABC = some (.jp 0xABC) := by decide
theorem test_decode_call : decodeTableWord 16 0x220C = some (.call 0x20C) := by decide
theorem test_decode_seImm : decodeTableWord 16 0x3A3D = some (.seImm 0xA 0x3D) := by decide
theorem test_decode_sneImm : decodeTableWord 16 0x4A3D = some (.sneImm 0xA 0x3D) := by decide
theorem test_decode_seReg : decodeTableWord 16 0x5AB0 = some (.seReg 0xA 0xB) := by decide
theorem test_decode_ldImm : decodeTableWord 16 0x6A3D = some (.ldImm 0xA 0x3D) := by decide
theorem test_decode_addImm : decodeTableWord 16 0x70FF = some (.addImm 0 0xFF) := by decide
theorem test_decode_ldReg : decodeTableWord 16 0x82F0 = some (.ldReg 2 0xF) := by decide
theorem test_decode_orReg : decodeTableWord 16 0x8121 = some (.orReg 1 2) := by decide
theorem test_decode_andReg : decodeTableWord 16 0x8122 = some (.andReg 1 2) := by decide
theorem test_decode_xorReg : decodeTableWord 16 0x8123 = some (.xorReg 1 2) := by decide
theorem test_decode_addReg : decodeTableWord 16 0x8014 = some (.addReg 0 1) := by decide
theorem test_decode_sub : decodeTableWord 16 0x8105 = some (.sub 1 0) := by decide
theorem test_decode_shr : decodeTableWord 16 0x8126 = some (.shr 1 2) := by decide
theorem test_decode_subn : decodeTableWord 16 0x8127 = some (.subn 1 2) := by decide
theorem test_decode_shl : decodeTableWord 16 0x812E = some (.shl 1 2) := by decide
theorem test_decode_sneReg : decodeTableWord 16 0x9AB0 = some (.sneReg 0xA 0xB) := by decide
theorem test_decode_ldI : decodeTableWord 16 0xA050 = some (.ldI 0x050) := by decide
theorem test_decode_jpV0 : decodeTableWord 16 0xB300 = some (.jpV0 0x300) := by decide
theorem test_decode_rnd : decodeTableWord 16 0xC30F = some (.rnd 3 0x0F) := by decide
theorem test_decode_drw : decodeTableWord 16 0xD345 = some (.drw 3 4 5) := by decide
theorem test_decode_skp : decodeTableWord 16 0xE39E = some (.skp 3) := by decide
theorem test_decode_sknp : decodeTableWord 16 0xE3A1 = some (.sknp 3) := by decide
theorem test_decode_ldVxDt : decodeTableWord 16 0xF107 = some (.ldVxDt 1) := by decide
theorem test_decode_ldVxK : decodeTableWord 16 0xF50A = some (.ldVxK 5) := by decide
theorem test_decode_ldDtVx : decodeTableWord 16 0xF215 = some (.ldDtVx 2) := by decide
theorem test_decode_ldStVx : decodeTableWord 16 0xF218 = some (.ldStVx 2) := by decide
theorem test_decode_addI : decodeTableWord 16 0xF11E = some (.addI 1) := by decide
theorem test_decode_ldF : decodeTableWord 16 0xF329 = some (.ldF 3) := by decide
theorem test_decode_ldB : decodeTableWord 16 0xF133 = some (.ldB 1) := by decide
theorem test_decode_storeRegs : decodeTableWord 16 0xF355 = some (.storeRegs 3) := by decide
theorem test_decode_loadRegs : decodeTableWord 16 0xF265 = some (.loadRegs 2) := by decide

/-- Invalid opcodes of each family (spec/95_test_vectors.md section 2.1). -/
theorem test_decode_invalid : ([0x0000, 0x0123, 0x00E1, 0x01E0, 0x00FD, 0x5121, 0x8128, 0x812F, 0x9125, 0xE19F, 0xE000, 0xF100, 0xF175,
    0xFFFF].all fun w => decodeTableWord 16 w == none) = true := by decide
theorem test_decode_truncated : decodeBytes [0x60] = .error .truncated := by decide
/-- The first byte is the high one (spec/30_encoding.md R81). -/
theorem test_decode_big_endian : decodeBytes [0x6A, 0x3D, 0x12] = .ok (.ldImm 0xA 0x3D, [0x12]) := by decide

/-! ## Single steps (spec/95_test_vectors.md; the vector's name in each comment) -/

/-- The reset state with some registers set. -/
def withRegs (rs : List (Reg × Byte)) : State := rs.foldl (fun s r => s.setReg r.1 r.2) State.reset

/-- The reset state with the index register set. -/
def withIndex (i : Word) (rs : List (Reg × Byte)) : State := (withRegs rs).setI i

/-- The state with `k` pressed. -/
def pressed (k : Fin 16) (s : State) : State := s.writeKeys (s.key.set k.val true k.isLt)

/-- The state with `sp` entries on the stack, each `w`. -/
def withStack (n : Fin 17) (w : Word) : State := { State.reset with sp := n, stack := Vector.replicate 16 w }

/-- The state after one step on the opcode `op` placed at `pc`. -/
def stepOn (op : Nat) (s : State) : State := after (s.withFetchWord 16 op)

/-- One cell set. -/
def withCell (row : Fin 32) (col : Fin 64) (s : State) : State := { s with fb := s.fb.toggle row col }

/-- CF11 -/
theorem test_cls_clears :
    let t := stepOn 0x00E0 (withCell 31 63 (withCell 0 5 State.reset)); t.fb = State.reset.fb ∧ t.redraw = true ∧ t.pc = 0x202 := by decide
/-- CF12 -/
theorem test_cls_sets_redraw_on_clear_screen :
    (stepOn 0x00E0 State.reset).redraw = true := by decide
/-- CF5 -/
theorem test_ret_pops :
    let t := stepOn 0x00EE (withStack 1 0x206); t.pc = 0x206 ∧ t.sp = 0 ∧ t.stack[0] = 0x206 := by decide
/-- CF8 -/
theorem test_ret_underflow :
    let t := stepOn 0x00EE State.reset; t.pc = 0 ∧ t.sp = 0 ∧ t.status = .reported .stackUnderflow := by decide
/-- CF1 -/
theorem test_jp :
    (stepOn 0x1ABC State.reset).pc = 0xABC := by decide
/-- CF4 -/
theorem test_call_pushes :
    let t := stepOn 0x2ABC State.reset; t.pc = 0xABC ∧ t.sp = 1 ∧ t.stack[0] = 0x202 := by decide
/-- CF10 -/
theorem test_call_overflow :
    let t := stepOn 0x2ABC (withStack 16 7); t.pc = 0xABC ∧ t.sp = 16 ∧ t.stack = Vector.replicate 16 7 ∧ t.status = .reported .stackOverflow := by decide
/-- CF3 -/
theorem test_jpV0 :
    (stepOn 0xB300 (withRegs [(0, 4)])).pc = 0x304 := by decide
/-- CF9 -/
theorem test_jpV0_unmasked :
    (stepOn 0xBFFF (withRegs [(0, 0xFF)])).pc = 0x10FE := by decide
/-- SK1 -/
theorem test_seImm_skips :
    (stepOn 0x3A3D (withRegs [(0xA, 0x3D)])).pc = 0x204 := by decide
/-- SK2 -/
theorem test_seImm_not :
    (stepOn 0x3A3D (withRegs [(0xA, 0x3C)])).pc = 0x202 := by decide
/-- SK3 -/
theorem test_sneImm_not :
    (stepOn 0x4A3D (withRegs [(0xA, 0x3D)])).pc = 0x202 := by decide
/-- SK4 -/
theorem test_sneImm_skips :
    (stepOn 0x4A3D (withRegs [(0xA, 0x3C)])).pc = 0x204 := by decide
/-- SK5 -/
theorem test_seReg_skips :
    (stepOn 0x5AB0 (withRegs [(0xA, 7), (0xB, 7)])).pc = 0x204 := by decide
/-- SK6 -/
theorem test_seReg_not :
    (stepOn 0x5AB0 (withRegs [(0xA, 7), (0xB, 8)])).pc = 0x202 := by decide
/-- SK7 -/
theorem test_sneReg_not :
    (stepOn 0x9AB0 (withRegs [(0xA, 7), (0xB, 7)])).pc = 0x202 := by decide
/-- SK8 -/
theorem test_sneReg_skips :
    (stepOn 0x9AB0 (withRegs [(0xA, 7), (0xB, 8)])).pc = 0x204 := by decide
/-- S2 -/
theorem test_ldImm :
    let t := stepOn 0x6A3D State.reset; t.reg 0xA = 0x3D ∧ t.pc = 0x202 := by decide
/-- AL2 -/
theorem test_addImm_wraps_without_flag :
    let t := stepOn 0x7001 (withRegs [(0, 0xFF), (0xF, 7)]); t.reg 0 = 0 ∧ t.reg 0xF = 7 := by decide
/-- AL3 -/
theorem test_addImm_vf :
    (stepOn 0x7F01 (withRegs [(0xF, 0xFF)])).reg 0xF = 0 := by decide
/-- AL5 -/
theorem test_ldReg :
    let t := stepOn 0x8120 (withRegs [(1, 1), (2, 0x9A), (0xF, 5)]); t.reg 1 = 0x9A ∧ t.reg 2 = 0x9A ∧ t.reg 0xF = 5 := by decide
/-- AL6 -/
theorem test_orReg :
    let t := stepOn 0x8121 (withRegs [(1, 0xF0), (2, 0x0F), (0xF, 5)]); t.reg 1 = 0xFF ∧ t.reg 0xF = 5 := by decide
/-- AL7 -/
theorem test_andReg :
    let t := stepOn 0x8122 (withRegs [(1, 0xF3), (2, 0x3C), (0xF, 5)]); t.reg 1 = 0x30 ∧ t.reg 0xF = 5 := by decide
/-- AL8 -/
theorem test_xorReg :
    let t := stepOn 0x8123 (withRegs [(1, 0xFF), (2, 0x0F), (0xF, 5)]); t.reg 1 = 0xF0 ∧ t.reg 0xF = 5 := by decide
/-- S3, AL10 -/
theorem test_addReg_carry :
    let t := stepOn 0x8014 (withRegs [(0, 0xFF), (1, 1)]); t.reg 0 = 0 ∧ t.reg 0xF = 1 := by decide
/-- AF4 -/
theorem test_addReg_source_vf :
    let t := stepOn 0x81F4 (withRegs [(1, 0x10), (0xF, 0x20)]); t.reg 1 = 0x10 ∧ t.reg 0xF = 0 := by decide
/-- AL16 -/
theorem test_sub_borrow :
    let t := stepOn 0x8105 (withRegs [(1, 2), (0, 3), (0xF, 1)]); t.reg 1 = 0xFF ∧ t.reg 0xF = 0 := by decide
/-- AF7 -/
theorem test_sub_destination_vf :
    (stepOn 0x8F15 (withRegs [(0xF, 5), (1, 3)])).reg 0xF = 0xFE := by decide
/-- AL25 -/
theorem test_shr_ignores_y :
    let t := stepOn 0x8126 (withRegs [(1, 4), (2, 0xFF), (0xF, 1)]); t.reg 1 = 2 ∧ t.reg 2 = 0xFF ∧ t.reg 0xF = 0 := by decide
/-- AF12 -/
theorem test_shr_destination_vf :
    (stepOn 0x8F16 (withRegs [(0xF, 3)])).reg 0xF = 0 := by decide
/-- AL27 -/
theorem test_subn_borrow :
    let t := stepOn 0x8127 (withRegs [(1, 0xA), (2, 3), (0xF, 1)]); t.reg 1 = 0xF9 ∧ t.reg 0xF = 0 := by decide
/-- AF16 -/
theorem test_subn_source_vf :
    let t := stepOn 0x81F7 (withRegs [(1, 5), (0xF, 9)]); t.reg 1 = 0xFC ∧ t.reg 0xF = 1 := by decide
/-- AL34 -/
theorem test_shl_ignores_y :
    let t := stepOn 0x812E (withRegs [(1, 0x40), (2, 0xFF)]); t.reg 1 = 0x80 ∧ t.reg 2 = 0xFF ∧ t.reg 0xF = 0 := by decide
/-- AF19 -/
theorem test_shl_destination_vf :
    (stepOn 0x8F1E (withRegs [(0xF, 0x80)])).reg 0xF = 2 := by decide
/-- IX2 -/
theorem test_ldI :
    (stepOn 0xAFFF (withIndex 0x1234 [])).i = 0xFFF := by decide
/-- S6, DR1 -/
theorem test_drw_wraps_columns :
    let t := stepOn 0xD011 ((withIndex 0x300 [(0, 60)]).writeMem 0x300 0xFF); (∀ c : Fin 64, t.cell 0 c = decide (c < 4 ∨ 60 ≤ c)) ∧ t.reg 0xF = 0 ∧ t.redraw = true := by decide
/-- DR13 -/
theorem test_drw_row_from_old_vf :
    let t := stepOn 0xD1F1 (withCell 3 2 ((withIndex 0x300 [(0xF, 3), (1, 2)]).writeMem 0x300 0x80)); t.cell 3 2 = false ∧ t.reg 0xF = 1 := by decide
/-- KY5 -/
theorem test_skp_low_nibble :
    (stepOn 0xE19E (pressed 5 (withRegs [(1, 0x15)]))).pc = 0x204 := by decide
/-- KY2 -/
theorem test_skp_not :
    (stepOn 0xE19E (withRegs [(1, 5)])).pc = 0x202 := by decide
/-- KY6 -/
theorem test_sknp_low_nibble :
    (stepOn 0xE1A1 (pressed 5 (withRegs [(1, 0xF5)]))).pc = 0x202 := by decide
/-- KY4 -/
theorem test_sknp_skips :
    (stepOn 0xE1A1 (withRegs [(1, 5)])).pc = 0x204 := by decide
/-- FX1 -/
theorem test_ldVxDt :
    let t := stepOn 0xF207 ((withRegs [(2, 0x55)]).setDt 0x3C); t.reg 2 = 0x3C ∧ t.dt = 0x3C := by decide
/-- FX5 -/
theorem test_ldVxK_waits :
    let s := State.reset.withFetchWord 16 0xF00A; after s = s := by decide
/-- FX6 -/
theorem test_ldVxK_lowest :
    let t := stepOn 0xF00A (pressed 9 (pressed 3 State.reset)); t.reg 0 = 3 ∧ t.pc = 0x202 := by decide
/-- FX2 -/
theorem test_ldDtVx :
    (stepOn 0xF215 (withRegs [(2, 0x3C)])).dt = 0x3C := by decide
/-- FX4 -/
theorem test_ldStVx :
    let s := ((withRegs [(2, 0x3C)]).setDt 7).withFetchWord 16 0xF218; after s = s.setPc 0x202 := by decide
/-- FX15 -/
theorem test_addI_wraps :
    let t := stepOn 0xF11E (withIndex 0xFFFF [(1, 1)]); t.i = 0 ∧ t.reg 0xF = 1 := by decide
/-- FX19 -/
theorem test_addI_vf :
    let t := stepOn 0xFF1E (withIndex 0x0F80 [(0xF, 0x80)]); t.i = 0x0F81 ∧ t.reg 0xF = 1 := by decide
/-- FX22 -/
theorem test_ldF :
    (stepOn 0xF329 (withRegs [(3, 5)])).i = 0x69 := by decide
/-- FX25 -/
theorem test_ldF_low_nibble :
    (stepOn 0xF329 (withRegs [(3, 0xFF)])).i = 0x9B := by decide
/-- FX26 -/
theorem test_ldB :
    let t := stepOn 0xF133 (withIndex 0x300 [(1, 109)]); [t.readMem 0x300, t.readMem 0x301, t.readMem 0x302] = [1, 0, 9] ∧ t.i = 0x300 := by decide
/-- FX27 -/
theorem test_ldB_wraps :
    let t := stepOn 0xF133 (withIndex 0x0FFE [(1, 0xFF)]); [t.readMem 0xFFE, t.readMem 0xFFF, t.readMem 0] = [2, 5, 5] ∧ t.i = 0xFFE := by decide
/-- FX28 -/
theorem test_storeRegs :
    let t := stepOn 0xF355 (withIndex 0x300 [(0, 1), (1, 2), (2, 3), (3, 4), (4, 9)]); t.readBytes 0x300 5 = [1, 2, 3, 4, 0] ∧ t.i = 0x304 := by decide
/-- FX31 -/
theorem test_storeRegs_wraps :
    let t := stepOn 0xF155 (withIndex 0xFFF [(0, 0xAA), (1, 0xBB)]); t.readMem 0xFFF = 0xAA ∧ t.readMem 0 = 0xBB ∧ t.i = 0x1001 := by decide
/-- FX34 -/
theorem test_loadRegs_font :
    let t := stepOn 0xFF65 (withIndex 0x50 []); t.v.toList = [0xF0, 0x90, 0x90, 0x90, 0xF0, 0x20, 0x60, 0x20, 0x20, 0x70, 0xF0, 0x10, 0xF0, 0x80, 0xF0, 0xF0] ∧ t.i = 0x60 := by decide
/-- FX33 -/
theorem test_loadRegs_keeps_above :
    let t := stepOn 0xF065 (((withIndex 0x300 [(0, 9), (1, 9)]).writeMem 0x300 0x77).writeMem 0x301 0x88); t.reg 0 = 0x77 ∧ t.reg 1 = 9 ∧ t.i = 0x301 := by decide
/-- RN3: under the mask 00 the result is 0 for every random byte. -/
theorem test_rnd_mask_zero (s : State) : ∃ t, exec (.rnd 3 0) s = .next t ∧ t.reg 3 = 0 :=
  ⟨_, rfl, by
    show State.reg (s.drawRandom.setReg 3 (s.nextRandom &&& 0)) 3 = 0
    simp [State.reg, State.setReg]⟩
/-- The random byte is used up, and only by `Cxnn`, which advances `pc` by 2 (R191). -/
theorem test_rnd_draws : (stepOn 0xC30F State.reset).draws = 1 ∧ (stepOn 0xC30F State.reset).pc = 0x202 ∧
    (stepOn 0x630F State.reset).draws = 0 := by decide

/-! ## The step and the host operations (spec/95_test_vectors.md sections 2.1 and 2.9) -/

/-- ST1: an odd program counter. -/
theorem test_step_odd_pc : let t := stepOn 0x6A3D (State.reset.setPc 0x201); t.reg 0xA = 0x3D ∧ t.pc = 0x203 := by decide
/-- ST5: the second byte at `pc = 0xFFF` comes from address 0. -/
theorem test_step_fetch_wraps :
    let t := after (((State.reset.setPc 0xFFF).writeMem 0xFFF 0x6A).writeMem 0 0x3D); t.reg 0xA = 0x3D ∧ t.pc = 0x1001 := by decide
/-- ST3: out of bounds nothing changes but the reported status. -/
theorem test_step_out_of_bounds : let s := State.reset.setPc 0x1000; after s = s.raise .programCounterOutOfBounds := by decide
/-- ST7: reset state, nothing loaded. -/
theorem test_step_invalid : after State.reset = (State.reset.raise .invalidOpcode).setPc 0x202 := by decide
/-- TM1, TM3. -/
theorem test_tick : ((State.reset.setDt 2).tickTimer.dt, (State.reset.setDt 0).tickTimer.dt) = (1, 0) := by decide
/-- A ROM is copied to 0x200 (R264). -/
theorem test_load : let t := State.reset.load (some [0xAA, 0xBB]); t.readBytes 0x1FF 4 = [0, 0xAA, 0xBB, 0] := by decide
/-- R291: the default codes. -/
theorem test_codes : ([Status.ok, .reported .invalidOpcode, .reported .stackOverflow, .reported .stackUnderflow,
    .reported .programCounterOutOfBounds].map (Status.code defaultConfig)) = [0, 1, 2, 3, 4] ∧
    ([LoadResult.success, .ioError, .sizeError].map (LoadResult.code defaultConfig)) = [0, 5, 6] := by decide
/-- A write of the byte an address reads as at reset leaves no entry: equal memories are equal data. -/
theorem test_memory_canonical : ((State.reset.writeMem 0x50 1).writeMem 0x50 0xF0).mem = [] := by decide

/-! ## Witnesses: a state and operands that meet each statement's hypotheses, and each clause at its boundary -/

/-- DecodeOfEncode, DrawResult. -/
theorem witness_wellFormed : Instr.WellFormed (.drw 3 4 5) ∧ Instr.WellFormed .cls := by decide
/-- EncodeOfDecode. -/
theorem witness_decodes : decode 0xD34F = .ok (.drw 3 4 15) := by decide
/-- InvalidOpcodesExactly: a refused word, and a word of each clause, with a neighbour that is an instruction. -/
theorem witness_invalid : decode 0x0000 = .error (.invalidOpcode 0x0000) := by decide
theorem witness_invalid_clauses : InvalidByDigits 0x00E1 ∧ InvalidByDigits 0x5001 ∧ InvalidByDigits 0x8008 ∧ InvalidByDigits 0x900F ∧
    InvalidByDigits 0xE09F ∧ InvalidByDigits 0xF066 ∧ ¬InvalidByDigits 0x00E0 ∧ ¬InvalidByDigits 0x5000 ∧ ¬InvalidByDigits 0x8007 ∧
    ¬InvalidByDigits 0x9000 ∧ ¬InvalidByDigits 0xE09E ∧ ¬InvalidByDigits 0xF065 := by
  refine ⟨?_, ?_, ?_, ?_, ?_, ?_, ?_, ?_, ?_, ?_, ?_, ?_⟩ <;> (unfold InvalidByDigits; decide)
/-- StepRunsDecodedInstruction, at the last address a step fetches at. -/
theorem witness_step_runs : let s := (State.reset.setPc 0xFFF).withFetchWord 16 0x6A3D
    s.pc.toNat < 0x1000 ∧ decode (opcodeOf (s.readMem s.pc.toNat) (s.readMem (s.pc.toNat + 1))) = .ok (.ldImm 0xA 0x3D) := by decide
/-- StoredOpcodeIsRunNext, ProgramCounterAfterEveryInstruction. -/
theorem witness_in_bounds : (State.reset.setPc 0xFFF).pc.toNat < 0x1000 ∧ Instr.WellFormed .ret := by decide
/-- InvalidOpcodeAdvancesByTwo. -/
theorem witness_fetchesInvalid : FetchesInvalid State.reset := ⟨by decide, by decide⟩
/-- OutOfBoundsStepsForever, at the first address out of bounds. -/
theorem witness_out_of_bounds : 0x1000 ≤ (State.reset.setPc 0x1000).pc.toNat := by decide
/-- StatusOfEveryStep: a state of each of the five clauses. -/
theorem witness_status_clauses : 0x1000 ≤ (State.reset.setPc 0x1000).pc.toNat ∧ FetchesInvalid State.reset ∧
    Runs ((withStack 16 0).withFetchWord 16 0x2ABC) (.call 0xABC) ∧ Runs (State.reset.withFetchWord 16 0x00EE) .ret ∧
    Runs ((withStack 15 0).withFetchWord 16 0x2ABC) (.call 0xABC) ∧ Runs ((withStack 1 0).withFetchWord 16 0x00EE) .ret :=
  ⟨by decide, ⟨by decide, by decide⟩, ⟨by decide, by decide⟩, ⟨by decide, by decide⟩, ⟨by decide, by decide⟩, ⟨by decide, by decide⟩⟩
/-- EveryStepKeepsInvariant, EveryScheduleKeepsInvariant: a state that meets the invariant with an entry on the stack, and its step. -/
theorem witness_inv : Inv (withStack 1 0x206) ∧ step (withStack 1 0x206) = .next (after (withStack 1 0x206)) :=
  ⟨⟨by decide, by decide, by decide⟩, rfl⟩
/-- The reset table's two memory clauses at their boundaries. -/
theorem witness_reset_memory : State.reset.config.fontBase = 0x50 ∧
    [State.reset.readMem 0x4F, State.reset.readMem 0x50, State.reset.readMem 0x9F, State.reset.readMem 0xA0] = [0, 0xF0, 0x80, 0] := by
  decide
/-- ReturnResult and CallResult: both sides of each clause. -/
theorem witness_stack_clauses : (withStack 0 0).sp.val = 0 ∧ (withStack 1 0).sp.val ≠ 0 ∧ (withStack 15 0).sp.val < 16 ∧
    ¬(withStack 16 0).sp.val < 16 := by decide
/-- JumpResult: a jump to itself. -/
theorem witness_jump_to_self : let s := State.reset.withFetchWord 16 0x1200
    Runs s (.jp 0x200) ∧ s.pc.toNat = (0x200 : Addr).toNat := ⟨⟨by decide, by decide⟩, by decide⟩
/-- EndedRunStaysEnded: a run that ended, and one that did not, a jump elsewhere. -/
theorem witness_ended : (State.reset.withFetchWord 16 0x1200).ended = true ∧ (State.reset.withFetchWord 16 0x1202).ended = false := by
  decide
/-- EndedRunStaysEnded: its operations, with one of each kind. -/
theorem witness_ended_schedule : ∀ o ∈ [HostOp.step, .tickTimer, .writeKeys (Vector.replicate 16 true), .clearRedraw],
    o ≠ .reset ∧ ∀ source, o ≠ .load source := by simp
/-- StackIsLastInFirstOut, with a full stack after the pushes. -/
theorem witness_pushes_fit : (withStack 14 0).sp.val + [0x202, (0x204 : Word)].length ≤ 16 := by decide
/-- KeySkipResults. -/
theorem witness_key : (5 : Fin 16).val = ((withRegs [(1, 0x15)]).reg 1).toNat % 16 := by decide
/-- RegisterFAsOperandTable, DoubleDrawRestoresScreen. -/
theorem witness_not_vf : (1 : Reg) ≠ Reg.vf ∧ (0xE : Reg) ≠ Reg.vf ∧ Instr.WellFormed (.drw 1 0xE 15) := by decide
/-- RandomResult: the masks of its last clauses. -/
theorem witness_masks : (0 : Byte) = 0 ∧ (0xFF : Byte) = 0xFF := by decide
/-- A state whose one sprite byte 0x80 lies at cell (row 0, column 0). -/
def spriteState : State := (State.reset.setI 0x300).writeMem 0x300 0x80
/-- DrawResult, DoubleDrawRestoresScreen: a cell under the sprite, set in one state and clear in the other. -/
theorem witness_sprite : SpriteAt (withCell 0 0 spriteState) 0 1 1 0 0 ∧ (withCell 0 0 spriteState).cell 0 0 = true ∧
    SpriteAt spriteState 0 1 1 0 0 ∧ spriteState.cell 0 0 = false :=
  ⟨⟨0, by decide, 0, by decide, by decide, by decide, by decide⟩, by decide,
    ⟨0, by decide, 0, by decide, by decide, by decide, by decide⟩, by decide⟩
/-- DrawResult: a sprite of no rows lies under no cell, so nothing collides. -/
theorem witness_no_sprite : ¬SpriteAt spriteState 0 1 0 0 0 := fun ⟨_, h, _⟩ => absurd h (Nat.not_lt_zero _)
/-- WaitForKeyResult: its clauses, with no key and with keys 3 and 9. -/
theorem witness_keys : (∀ k, State.reset.keyDown k = false) ∧ (pressed 9 (pressed 3 State.reset)).keyDown 3 = true ∧
    ∀ j, j < 3 → (pressed 9 (pressed 3 State.reset)).keyDown j = false := by decide
/-- KeyWaitHoldsUntilKey, WaitForKeyResult's waiting step. -/
theorem witness_waits : WaitsForKey (State.reset.withFetchWord 16 0xF00A) ∧ (Vector.replicate 16 true)[(3 : Fin 16)] = true :=
  ⟨⟨⟨0, by decide, by decide⟩, by decide⟩, by decide⟩
/-- AddWithCarryResult, SubtractResults, ShiftResults, AddIndexResult: operands on both sides of each flag's boundary. -/
theorem witness_flag_boundaries : carryAdd 0xFE 1 = false ∧ carryAdd 0xFF 1 = true ∧ notBorrow 3 3 = true ∧ notBorrow 2 3 = false ∧
    shiftedOutRight 4 = false ∧ shiftedOutRight 5 = true ∧ shiftedOutLeft 0x7F = false ∧ shiftedOutLeft 0x80 = true ∧
    indexOutOfRange 0xFFF 0 = false ∧ indexOutOfRange 0xFFF 1 = true := by decide
/-- StoreDecimalResult, StoreRegistersResult, LoadCopiesRom: addresses inside and just outside the bytes, across the wrap. -/
theorem witness_outside : OutsideBytes 0xFFE 3 0xFFD ∧ OutsideBytes 0xFFE 3 1 ∧ ¬OutsideBytes 0xFFE 3 0 := by
  unfold OutsideBytes
  decide
/-- StoreThenLoadRestoresRegisters: the state after the store itself, its index register put back, qualifies. -/
theorem witness_store_then_load : let s := withIndex 0x300 [(0, 7)]
    let t := stepOn 0xF055 s
    (t.setI 0x300).i = s.i ∧ ∀ k, k ≤ (0 : Reg) → (t.setI 0x300).readMem (s.dataAddr k.val) = t.readMem (s.dataAddr k.val) := by decide
/-- TickDecrementsDelayTimer: both clauses. -/
theorem witness_tick : (State.reset.setDt 0).dt.toNat = 0 ∧ (State.reset.setDt 1).dt.toNat ≠ 0 := by decide
/-- LoadCopiesRom and FailedLoadChangesNothing, at the two lengths where they meet. -/
theorem witness_rom_lengths : (List.replicate 3584 (0xAA : Byte)).length ≤ 3584 ∧ 3584 < (List.replicate 3585 (0xAA : Byte)).length := by
  rw [List.length_replicate, List.length_replicate]
  decide
/-- KeysChangedOnlyByHost. -/
theorem witness_keys_changed : ∃ t, perform (.writeKeys (Vector.replicate 16 true)) State.reset = .next t ∧
    t.keyDown 0 ≠ State.reset.keyDown 0 := ⟨_, rfl, by decide⟩
/-- DelayTimerGrowsOnlyByWrite: both clauses. -/
theorem witness_timer_ops : (∃ t, perform .step ((withRegs [(2, 9)]).withFetchWord 16 0xF215) = .next t ∧ t.dt = 9) ∧
    ∃ t, perform .tickTimer (State.reset.setDt 1) = .next t ∧ t.dt = 0 := ⟨⟨_, rfl, by decide⟩, ⟨_, rfl, by decide⟩⟩
/-- RedrawSetOnlyByClearAndDraw, CellsChangedOnlyByClearAndDraw: a step that clears a set cell. -/
theorem witness_cell_changed : ∃ t, step ((withCell 0 0 State.reset).withFetchWord 16 0x00E0) = .next t ∧
    t.cell 0 0 ≠ ((withCell 0 0 State.reset).withFetchWord 16 0x00E0).cell 0 0 ∧ t.redraw = true := ⟨_, rfl, by decide, by decide⟩
/-- MemoryWrittenOnlyByStores: a byte each kind of store writes. -/
theorem witness_byte_changed : (∃ t, step ((withIndex 0x300 [(1, 0xFF)]).withFetchWord 16 0xF133) = .next t ∧
    t.readMem 0x302 ≠ ((withIndex 0x300 [(1, 0xFF)]).withFetchWord 16 0xF133).readMem 0x302) ∧
    ∃ t, step ((withIndex 0x300 [(1, 0xFF)]).withFetchWord 16 0xF155) = .next t ∧
      t.readMem 0x301 ≠ ((withIndex 0x300 [(1, 0xFF)]).withFetchWord 16 0xF155).readMem 0x301 :=
  ⟨⟨_, rfl, by decide⟩, ⟨_, rfl, by decide⟩⟩
/-- StackChangedOnlyByCallAndReturn: a call and a return that move `sp`, the call writing an entry. -/
theorem witness_stack_changed : (∃ t, step (State.reset.withFetchWord 16 0x2ABC) = .next t ∧
    t.stack[(0 : Fin 16)] ≠ State.reset.stack[(0 : Fin 16)] ∧ t.sp ≠ State.reset.sp) ∧
    ∃ t, step ((withStack 1 0x206).withFetchWord 16 0x00EE) = .next t ∧ t.sp ≠ (1 : Fin 17) :=
  ⟨⟨_, rfl, by decide, by decide⟩, ⟨_, rfl, by decide⟩⟩
/-- FlagRegisterWrittenOnlyByListed. -/
theorem witness_vf_changed : ∃ t, step ((withRegs [(0, 0xFF), (1, 1)]).withFetchWord 16 0x8014) = .next t ∧
    t.reg .vf ≠ ((withRegs [(0, 0xFF), (1, 1)]).withFetchWord 16 0x8014).reg .vf := ⟨_, rfl, by decide⟩
/-- IndexWrittenOnlyByListed. -/
theorem witness_index_changed : ∃ t, step (State.reset.withFetchWord 16 0xA050) = .next t ∧ t.i ≠ State.reset.i := ⟨_, rfl, by decide⟩
/-- StaleStackIsNotObservable: two states that differ in a stack entry not in use. -/
theorem witness_stale : AgreeButStale (withStack 0 0) (withStack 0 7) ∧ withStack 0 0 ≠ withStack 0 7 := by
  refine ⟨⟨fun p hp => ?_, fun k hk => absurd hk (Nat.not_lt_zero _)⟩, by decide⟩
  cases p <;> first | exact absurd (by decide) hp | exact fun _ => rfl | exact fun _ _ => rfl | exact (rfl : _ = _)
/-- ScreenIsNotObservableExceptCollision: two states that differ in a cell. -/
theorem witness_screen : UnchangedBut [.fb, .redraw] State.reset (withCell 0 0 State.reset) ∧
    State.reset ≠ withCell 0 0 State.reset := by
  refine ⟨fun p hp => ?_, by decide⟩
  cases p <;> first | exact absurd (by decide) hp | exact fun _ => rfl | exact fun _ _ => rfl | exact (rfl : _ = _)

end Sys2Proof.Tests
end

section
/-!
PROOFS. A step that fetches an invalid opcode (spec/40_step_cycle.md R115): the state it answers, and the statement O7.
-/
namespace Sys2Proof.Machine

@[simp] theorem State.stepInvalid_pc (s : State) : s.stepInvalid.pc = s.pc + 2 := rfl
@[simp] theorem State.stepInvalid_status (s : State) : s.stepInvalid.status = .reported .invalidOpcode := rfl

/-- The decoder's answer is one: an invalid opcode is no instruction. -/
theorem FetchesInvalid.not_runs {s : State} (h : FetchesInvalid s) (i : Instr) : ¬Runs s i := fun hr => by
  cases hr.2.symm.trans h.2

/-- Of the three cases of a step, an invalid opcode leaves the last. -/
theorem FetchesInvalid.step_eq {s : State} (h : FetchesInvalid s) : step s = .next s.beginStep.stepInvalid := by
  rcases step_cases s with ⟨hout, -⟩ | ⟨hin, i, hd, -⟩ | ⟨-, -, -, hstep⟩
  · exact absurd h.1 (by omega)
  · exact absurd ⟨hin, hd⟩ (h.not_runs i)
  · exact hstep

/-- A step that runs no instruction changes `pc` and the status at most, so an invalid opcode changes no other part. -/
theorem FetchesInvalid.unchangedBut {s : State} (h : FetchesInvalid s) :
    UnchangedBut [.pc, .status] s s.beginStep.stepInvalid := by
  rcases step_runs_or_reports s _ h.step_eq with ⟨i, hr, -⟩ | ⟨-, hu⟩
  · exact absurd hr (h.not_runs i)
  · exact hu

/-- Settles O7: the step on an invalid opcode answers `stepInvalid`, whose frame is that of a step that runs no instruction. -/
theorem invalidOpcodeAdvancesByTwo : Obligations.InvalidOpcodeAdvancesByTwo := by
  intro s h
  exact ⟨_, h.step_eq, h.unchangedBut, by simp, by simp⟩

end Sys2Proof.Machine
end

section
/-!
PROOFS. The jump `1nnn` (spec/41_control_flow.md R132): its words, its effect, and the jump to itself. A step that runs a jump to its own
address answers `beginStep`, and that state is a fixed point of `step`. The statement O18.
-/
namespace Sys2Proof.Machine

/-! ## The words of the jump -/

/-- A jump's opcode decodes to it: the row of `1nnn` fits, and its field NNN is the target. -/
theorem decode_encode_jp (nnn : Addr) : decode (encode (.jp nnn)) = .ok (.jp nnn) := by
  obtain ⟨r, hr, hfit⟩ := Laws.RowFit.jp nnn
  rw [decode_of_fits r _ (List.mem_of_getElem? hr) hfit]
  cases hr
  simp [encode]

theorem encode_jp_eq_ofNat (nnn : Addr) : encode (.jp nnn) = BitVec.ofNat 16 (0x1000 + nnn.toNat) := by
  have hlt := nnn.isLt
  apply BitVec.eq_of_toNat_eq
  rw [encode, wordA_toNat, BitVec.toNat_ofNat, Nat.mod_eq_of_lt (by omega)]
  rfl

/-! ## The effect of the jump -/

@[simp] theorem zextAddr_toNat (nnn : Addr) : (zextAddr nnn).toNat = nnn.toNat :=
  BitVec.toNat_setWidth_of_le (by decide)

theorem exec_jp (nnn : Addr) (s : State) : exec (.jp nnn) s = .next (s.setPc (zextAddr nnn)) := rfl

/-- A jump to the address in `pc` answers the state it is run on. -/
theorem exec_jp_self (nnn : Addr) (s : State) (hpc : s.pc.toNat = nnn.toNat) : exec (.jp nnn) s = .next s := by
  have htarget : zextAddr nnn = s.pc := BitVec.eq_of_toNat_eq (by rw [zextAddr_toNat, hpc])
  rw [exec_jp, htarget]
  rfl

/-! ## Steps -/

@[simp] theorem State.beginStep_beginStep (s : State) : s.beginStep.beginStep = s.beginStep := rfl

/-- What a step runs does not depend on the status. -/
theorem runs_beginStep_iff (s : State) (i : Instr) : Runs s.beginStep i ↔ Runs s i := Iff.rfl

/-- Of the three cases of a step, an instruction to run leaves the second. -/
theorem Runs.step_eq {s : State} {i : Instr} (h : Runs s i) : step s = exec i s.beginStep := by
  rcases step_cases s with ⟨hout, -⟩ | ⟨hin, j, hj, hstep⟩ | ⟨-, e, he, -⟩
  · exact absurd h.1 (by omega)
  · rw [hstep, Runs.unique h ⟨hin, hj⟩]
  · cases h.2.symm.trans he

theorem performAll_step_cons {s t : State} (h : step s = .next t) (os : List HostOp) :
    performAll (.step :: os) s = performAll os t := by
  simp only [performAll, perform, h]

/-- A fixed point of `step` is one of any number of steps. -/
theorem performAll_replicate_step_of_fixed {s : State} (h : step s = .next s) (n : Nat) :
    performAll (List.replicate n .step) s = .next s := by
  induction n with
  | zero => rfl
  | succ n ih => rw [List.replicate_succ, performAll_step_cons h, ih]

/-! ## The jump to itself -/

theorem Runs.step_jp_self {s : State} {nnn : Addr} (h : Runs s (.jp nnn)) (hpc : s.pc.toNat = nnn.toNat) :
    step s = .next s.beginStep := by
  rw [h.step_eq, exec_jp_self nnn s.beginStep hpc]

/-- The first step clears the status, and the state it answers is a fixed point: the same jump is run there. -/
theorem Runs.performAll_jp_self {s : State} {nnn : Addr} (h : Runs s (.jp nnn)) (hpc : s.pc.toNat = nnn.toNat) (n : Nat) :
    performAll (List.replicate (n + 1) .step) s = .next s.beginStep := by
  have hfixed : step s.beginStep = .next s.beginStep := ((runs_beginStep_iff s _).2 h).step_jp_self hpc
  rw [List.replicate_succ, performAll_step_cons (h.step_jp_self hpc), performAll_replicate_step_of_fixed hfixed]

/-- Settles O18: the row of `1nnn` gives the words, its row in the table of written parts the frame, and a jump to itself reaches a fixed
point of `step` after one step. -/
theorem jumpResult : Obligations.JumpResult := by
  refine ⟨fun nnn => ?words, fun s nnn => ?effect, fun s nnn n hruns hpc => ?selfJump⟩
  case words => rw [← encode_jp_eq_ofNat, decode_encode_jp]
  case effect => exact ⟨_, exec_jp nnn s, exec_unchanged _ s _ (exec_jp nnn s), by simp⟩
  case selfJump =>
    exact ⟨_, hruns.performAll_jp_self hpc n, s.beginStep_unchanged, s.beginStep_status, (runs_beginStep_iff s _).2 hruns⟩

end Sys2Proof.Machine
end

section
/-!
PROOFS. The loads with an immediate byte, `6xnn` and `7xnn` (spec/43_load_alu.md R162, R163): their words and their effect. The
statements O24 and O25.
-/
namespace Sys2Proof.Machine

/-! ## The words -/

/-- An encoded instruction decodes to itself as soon as its row reads the operands back: its row fits, and no other row does. -/
theorem decode_encode_of_rowFit {i : Instr} (hfit : Laws.RowFit.Statement i)
    (hread : ∀ r, opRows[Laws.RowFit.place i]? = some r → r.instr (encode i) = i) : decode (encode i) = .ok i := by
  obtain ⟨r, hr, hf⟩ := hfit
  rw [decode_of_fits r _ (List.mem_of_getElem? hr) hf, hread r hr]

theorem decode_encode_ldImm (x : Reg) (nn : Byte) : decode (encode (.ldImm x nn)) = .ok (.ldImm x nn) := by
  refine decode_encode_of_rowFit (Laws.RowFit.ldImm x nn) fun r hr => ?_
  cases hr
  simp [encode]

theorem decode_encode_addImm (x : Reg) (nn : Byte) : decode (encode (.addImm x nn)) = .ok (.addImm x nn) := by
  refine decode_encode_of_rowFit (Laws.RowFit.addImm x nn) fun r hr => ?_
  cases hr
  simp [encode]

/-- Format XK as a number: the family, X and NN at their places, with no carry from one to the next. -/
theorem wordXK_eq_ofNat (f : BitVec 4) (x : Reg) (nn : Byte) :
    wordXK f x nn = BitVec.ofNat 16 (f.toNat * 4096 + 256 * x.val + nn.toNat) := by
  have hf := f.isLt
  have hx := x.isLt
  have hnn := nn.isLt
  apply BitVec.eq_of_toNat_eq
  rw [wordXK_toNat, BitVec.toNat_ofNat, Nat.mod_eq_of_lt (by omega)]
  omega

theorem encode_ldImm_eq_ofNat (x : Reg) (nn : Byte) :
    encode (.ldImm x nn) = BitVec.ofNat 16 (0x6000 + 256 * x.val + nn.toNat) := wordXK_eq_ofNat 0x6 x nn

theorem encode_addImm_eq_ofNat (x : Reg) (nn : Byte) :
    encode (.addImm x nn) = BitVec.ofNat 16 (0x7000 + 256 * x.val + nn.toNat) := wordXK_eq_ofNat 0x7 x nn

/-! ## The effect -/

theorem exec_ldImm (x : Reg) (nn : Byte) (s : State) : exec (.ldImm x nn) s = .next (s.setReg x nn).advance := rfl

theorem exec_addImm (x : Reg) (nn : Byte) (s : State) :
    exec (.addImm x nn) s = .next (s.setReg x (s.reg x + nn)).advance := rfl

/-- The frame of a register write followed by the advance of `pc`, within the registers. -/
theorem State.setReg_advance_regsUnchangedBut (s : State) (x : Reg) (b : Byte) :
    RegsUnchangedBut [x] s (s.setReg x b).advance := by
  intro r hr
  rw [State.advance_reg, State.reg_setReg_ne s b (by simpa using hr)]

/-- Settles O24: the row of `6xnn` gives the words, its row in the table of written parts the frame outside the registers, and the
register write the rest. X = 0xF needs no case of its own: the write treats VF as any register. -/
theorem loadImmediateResult : Obligations.LoadImmediateResult := by
  intro s x nn
  refine ⟨?words, _, exec_ldImm x nn s, exec_unchanged _ s _ (exec_ldImm x nn s), s.setReg_advance_regsUnchangedBut x nn,
    ?result, ?next⟩
  case words => rw [← encode_ldImm_eq_ofNat, decode_encode_ldImm]
  case result => simp
  case next => simp

/-- Settles O25: as O24, with the sum of two bytes written, whose value is the sum of their values modulo 256. -/
theorem addImmediateResult : Obligations.AddImmediateResult := by
  intro s x nn
  refine ⟨?words, _, exec_addImm x nn s, exec_unchanged _ s _ (exec_addImm x nn s), s.setReg_advance_regsUnchangedBut x _,
    ?sum, ?next⟩
  case words => rw [← encode_addImm_eq_ofNat, decode_encode_addImm]
  case sum => rw [State.advance_reg, State.reg_setReg_self, BitVec.toNat_add]
  case next => simp

end Sys2Proof.Machine
end

section
/-!
PROOFS. The load of the index register, `Annn` (spec/44_index_random.md R190): its words and its effect. The statement O31.
-/
namespace Sys2Proof.Machine

/-! ## The words -/

theorem decode_encode_ldI (nnn : Addr) : decode (encode (.ldI nnn)) = .ok (.ldI nnn) := by
  refine decode_encode_of_rowFit (Laws.RowFit.ldI nnn) fun r hr => ?_
  cases hr
  simp [encode]

/-- Format A as a number: the family and NNN at their places, with no carry from one to the other. -/
theorem wordA_eq_ofNat (f : BitVec 4) (nnn : Addr) : wordA f nnn = BitVec.ofNat 16 (f.toNat * 4096 + nnn.toNat) := by
  rw [← wordA_toNat, BitVec.ofNat_toNat, BitVec.setWidth_eq]

theorem encode_ldI_eq_ofNat (nnn : Addr) : encode (.ldI nnn) = BitVec.ofNat 16 (0xA000 + nnn.toNat) := wordA_eq_ofNat 0xA nnn

/-! ## The effect -/

theorem exec_ldI (nnn : Addr) (s : State) : exec (.ldI nnn) s = .next (s.setI (zextAddr nnn)).advance := rfl

/-- Settles O31: the row of `Annn` gives the words, its row in the table of written parts the frame, and the write of the
zero-extended NNN the value of I. -/
theorem loadIndexResult : Obligations.LoadIndexResult := by
  intro s nnn
  refine ⟨?words, _, exec_ldI nnn s, exec_unchanged _ s _ (exec_ldI nnn s), ?index, ?next⟩
  case words => rw [← encode_ldI_eq_ofNat, decode_encode_ldI]
  case index => rw [State.advance_i, State.setI_i, zextAddr_toNat]
  case next => rw [State.advance_pc, State.setI_pc]

end Sys2Proof.Machine
end

section
/-!
PROOFS. The words of format XO (spec/30_encoding.md R83): what a row of the opcode map with mask 0xF0FF makes of them.
-/
namespace Sys2Proof.Machine

/-- Format XO as a number: the fixed digits, and X at its place, with no carry from one to the next. -/
theorem wordXO_eq_ofNat (f : BitVec 4) (x : Reg) (low : Byte) :
    wordXO f x low = BitVec.ofNat 16 (f.toNat * 4096 + low.toNat + 256 * x.val) := by
  rw [wordXO, wordXK_eq_ofNat, Nat.add_right_comm]

/-- A row that fixes the family and the low byte and reads X decodes each of its words, written as a number. -/
theorem decode_ofNat_of_rowXO {f : BitVec 4} {low : Byte} {i : Reg → Instr} {k : Nat}
    (hrow : opRows[k]? = some ⟨0xF0FF, f ++ 0#4 ++ low, fun op => i (fieldX op)⟩) (x : Reg) :
    decode (BitVec.ofNat 16 (f.toNat * 4096 + low.toNat + 256 * x.val)) = .ok (i x) := by
  have hfit := beq_iff_eq.2 (wordXO_mask f x low)
  rw [← wordXO_eq_ofNat, decode_of_fits _ _ (List.mem_of_getElem? hrow) hfit]
  simp only [wordXO, fieldX_wordXK]

end Sys2Proof.Machine
end

section
/-!
PROOFS. The key wait `Fx0A` (spec/47_misc_fx.md R232): its words, and its effect with no key pressed and with some key pressed. The
statement O36.
-/
namespace Sys2Proof.Machine

theorem decode_ldVxK_word (x : Reg) : decode (BitVec.ofNat 16 (0xF00A + 256 * x.val)) = .ok (.ldVxK x) :=
  decode_ofNat_of_rowXO (f := 0xF) (low := 0x0A) (k := 26) rfl x

/-! ## The lowest pressed key -/

/-- A pressed key below which none is pressed is the first key: a first key on either side of it would contradict one of the two. -/
theorem State.firstKey_eq_some (s : State) {k : Fin 16} (hk : s.keyDown k = true) (hlow : ∀ j, j < k → s.keyDown j = false) :
    s.firstKey = some k := by
  cases hfirst : s.firstKey with
  | none => exact absurd hk (by simp [s.firstKey_none.1 hfirst k])
  | some j =>
    obtain ⟨hj, hjlow⟩ := s.firstKey_some j hfirst
    rcases lt_trichotomy j k with hlt | rfl | hgt
    · exact absurd hj (by simp [hlow j hlt])
    · rfl
    · exact absurd hk (by simp [hjlow k hgt])

/-! ## The effect -/

theorem exec_ldVxK_of_no_key {s : State} (h : ∀ k, s.keyDown k = false) (x : Reg) : exec (.ldVxK x) s = .next s := by
  simp only [exec, execLdVxK, s.firstKey_none.2 h]

theorem exec_ldVxK_of_firstKey {s : State} {k : Fin 16} (h : s.firstKey = some k) (x : Reg) :
    exec (.ldVxK x) s = .next (s.setReg x (BitVec.ofNat 8 k.val)).advance := by
  simp only [exec, execLdVxK, h]

/-- A step that waits for a key only clears the status. -/
theorem Runs.step_ldVxK_of_no_key {s : State} {x : Reg} (hruns : Runs s (.ldVxK x)) (h : ∀ k, s.keyDown k = false) :
    step s = .next s.beginStep := by
  rw [hruns.step_eq, exec_ldVxK_of_no_key (s := s.beginStep) h]

/-- A key number survives being stored as a byte. -/
theorem keyByte_toNat (k : Fin 16) : (BitVec.ofNat 8 k.val).toNat = k.val := by
  rw [BitVec.toNat_ofNat, Nat.mod_eq_of_lt (by omega)]

/-- Settles O36: the row of `Fx0A` gives the words; with no key pressed the meaning answers its own state; the lowest pressed key is the
first key, and its number is written as any byte. -/
theorem waitForKeyResult : Obligations.WaitForKeyResult := by
  refine fun s x => ⟨decode_ldVxK_word x, fun hnone => ⟨?stays, ?waits⟩, fun k hk hlow => ?latches⟩
  case stays => exact exec_ldVxK_of_no_key hnone x
  case waits =>
    exact fun hruns => ⟨_, hruns.step_ldVxK_of_no_key hnone, s.beginStep_unchanged, s.beginStep_status⟩
  case latches =>
    have hexec := exec_ldVxK_of_firstKey (s.firstKey_eq_some hk hlow) x
    refine ⟨_, hexec, exec_unchanged _ s _ hexec, s.setReg_advance_regsUnchangedBut x _, ?key, ?next⟩
    case key => rw [State.advance_reg, State.reg_setReg_self, keyByte_toNat]
    case next => rw [State.advance_pc, State.setReg_pc]

end Sys2Proof.Machine
end

section
/-!
PROOFS. The timer writes `Fx15` and `Fx18` (spec/47_misc_fx.md R234, R236): their words and their effect. The statement O38.
-/
namespace Sys2Proof.Machine

/-! ## The words -/

theorem decode_ldDtVx_word (x : Reg) : decode (BitVec.ofNat 16 (0xF015 + 256 * x.val)) = .ok (.ldDtVx x) :=
  decode_ofNat_of_rowXO (f := 0xF) (low := 0x15) (k := 27) rfl x

theorem decode_ldStVx_word (x : Reg) : decode (BitVec.ofNat 16 (0xF018 + 256 * x.val)) = .ok (.ldStVx x) :=
  decode_ofNat_of_rowXO (f := 0xF) (low := 0x18) (k := 28) rfl x

/-! ## The effect -/

theorem exec_ldDtVx (x : Reg) (s : State) : exec (.ldDtVx x) s = .next (s.setDt (s.reg x)).advance := rfl

theorem exec_ldStVx (x : Reg) (s : State) : exec (.ldStVx x) s = .next s.advance := rfl

/-- Settles O38: the two rows give the words, the table of written parts the frames, and the write of DT its value. -/
theorem writeTimersResults : Obligations.WriteTimersResults := by
  refine fun s x => ⟨decode_ldDtVx_word x, decode_ldStVx_word x, ?delay, ?sound⟩
  case delay =>
    refine ⟨_, exec_ldDtVx x s, exec_unchanged _ s _ (exec_ldDtVx x s), ?value, ?next⟩
    case value => rw [State.advance_dt, State.setDt_dt]
    case next => rw [State.advance_pc, State.setDt_pc]
  case sound => exact ⟨_, exec_ldStVx x s, exec_unchanged _ s _ (exec_ldStVx x s), s.advance_pc⟩

end Sys2Proof.Machine
end

section
/-!
PROOFS. The timer tick of the host (spec/50_host_interface.md R268): its two cases and its frame. The statement O45.
-/
namespace Sys2Proof.Machine

theorem State.tickTimer_of_dt_eq_zero {s : State} (h : s.dt = 0) : s.tickTimer = s := if_pos h

theorem State.tickTimer_of_dt_ne_zero {s : State} (h : s.dt ≠ 0) : s.tickTimer = s.setDt (s.dt - 1) := if_neg h

theorem State.setDt_unchangedBut (s : State) (b : Byte) : UnchangedBut [.dt] s (s.setDt b) := by
  intro p hp
  cases p
  case dt => exact absurd (List.mem_singleton_self _) hp
  all_goals simp [samePart]

/-- Settles O45: the two cases of the tick, at DT = 0, where the state is its own next, and at DT ≠ 0, where DT alone is written. -/
theorem tickDecrementsDelayTimer : Obligations.TickDecrementsDelayTimer := by
  refine fun s => ⟨s.tickTimer, rfl, ?_⟩
  by_cases hdt : s.dt = 0
  · rw [State.tickTimer_of_dt_eq_zero hdt]
    exact ⟨UnchangedBut.refl _ s, by simp [hdt]⟩
  · have hpos : s.dt.toNat ≠ 0 := by simpa [← BitVec.toNat_inj] using hdt
    rw [State.tickTimer_of_dt_ne_zero hdt]
    refine ⟨s.setDt_unchangedBut _, ?value⟩
    case value => rw [State.setDt_dt, if_neg hpos]; bv_omega

end Sys2Proof.Machine
end

section
/-!
PROOFS. The load of a ROM that fits (spec/50_host_interface.md R262 to R264): it is a row of writes from 0x200 on, which changes memory
and nothing else. The statement O46.
-/
namespace Sys2Proof.Machine

theorem loadResult_of_length_le {bytes : List Byte} (h : bytes.length ≤ maxRom) : loadResult (some bytes) = .success :=
  if_neg h.not_gt

theorem State.load_of_length_le (s : State) {bytes : List Byte} (h : bytes.length ≤ maxRom) :
    s.load (some bytes) = s.writeBytes 0x200 bytes := if_neg h.not_gt

theorem State.writeBytes_unchangedBut (s : State) (d : Nat) (bs : List Byte) : UnchangedBut [.mem] s (s.writeBytes d bs) := by
  intro p hp
  cases p
  case mem => exact absurd (List.mem_singleton_self _) hp
  all_goals simp [samePart]

/-- Settles O46: the load is a row of writes from 0x200 on. A row of at most 3584 bytes does not reach its own first byte again modulo
4096, so each byte of it reads back. -/
theorem loadCopiesRom : Obligations.LoadCopiesRom := by
  intro s bytes hfits
  refine ⟨s.writeBytes 0x200 bytes, ?load, loadResult_of_length_le hfits, s.writeBytes_unchangedBut _ _, ?inside, ?outside⟩
  case load => rw [perform, s.load_of_length_le hfits]
  case inside => exact s.readMem_writeBytes_inside 0x200 bytes (hfits.trans (by decide))
  case outside => exact s.readMem_writeBytes_outside 0x200 bytes

end Sys2Proof.Machine
end

section
/-!
PROOFS. Reset (spec/70_reset_and_hazards.md R330): the state the reset operation answers has the values of the reset table, and
`State.reset` is one such state. The statement O11.
-/
namespace Sys2Proof.Machine

/-- The reset operation lists no byte of memory, so memory reads as its reset content under the machine's own parameters. -/
theorem State.resetOp_readMem (s : State) (a : Nat) : s.resetOp.readMem a = Memory.read [] s.config a := rfl

theorem State.resetOp_stack_entry (s : State) (k : Fin 16) : s.resetOp.stack[k] = 0 := by
  simp [State.reset]

/-- No clause of the reset table depends on the state before. -/
theorem State.resetOp_isResetState (s : State) : IsResetState s.resetOp where
  regs := s.resetOp_reg
  index := rfl
  pc := rfl
  sp := rfl
  stack := s.resetOp_stack_entry
  dt := rfl
  fb := s.resetOp_cell
  key := s.resetOp_keyDown
  redraw := rfl
  font k := by rw [s.resetOp_readMem, s.resetOp_config, Memory.read_nil_font]
  zero a ha hout := by rw [s.resetOp_readMem, Memory.read_nil_zero s.config a ha hout]

/-- The two fields a reset keeps, the count of random bytes and the parameters, have the values of `State.reset` there. -/
theorem State.resetOp_reset : State.reset.resetOp = State.reset := rfl

/-- Settles O11: `State.reset` is its own reset, so both halves are the reset table of the reset operation. -/
theorem resetLeavesTheResetState : Obligations.ResetLeavesTheResetState :=
  ⟨State.resetOp_reset ▸ State.reset.resetOp_isResetState, fun s => ⟨s.resetOp, rfl, s.resetOp_isResetState, s.resetOp_config⟩⟩

end Sys2Proof.Machine
end

section
/-!
PROOFS. The decoder undoes the encoder (spec/30_encoding.md sections 1 to 3): the row of each instruction reads its operands back. The
statements O1 and O4.
-/
namespace Sys2Proof.Machine

/-- The encoder's opcode of every instruction fits the row of the instruction. -/
theorem rowFit (i : Instr) : Laws.RowFit.Statement i :=
  match i with
  | .cls => Laws.RowFit.cls
  | .ret => Laws.RowFit.ret
  | .jp nnn => Laws.RowFit.jp nnn
  | .call nnn => Laws.RowFit.call nnn
  | .seImm x nn => Laws.RowFit.seImm x nn
  | .sneImm x nn => Laws.RowFit.sneImm x nn
  | .seReg x y => Laws.RowFit.seReg x y
  | .ldImm x nn => Laws.RowFit.ldImm x nn
  | .addImm x nn => Laws.RowFit.addImm x nn
  | .ldReg x y => Laws.RowFit.ldReg x y
  | .orReg x y => Laws.RowFit.orReg x y
  | .andReg x y => Laws.RowFit.andReg x y
  | .xorReg x y => Laws.RowFit.xorReg x y
  | .addReg x y => Laws.RowFit.addReg x y
  | .sub x y => Laws.RowFit.sub x y
  | .shr x y => Laws.RowFit.shr x y
  | .subn x y => Laws.RowFit.subn x y
  | .shl x y => Laws.RowFit.shl x y
  | .sneReg x y => Laws.RowFit.sneReg x y
  | .ldI nnn => Laws.RowFit.ldI nnn
  | .jpV0 nnn => Laws.RowFit.jpV0 nnn
  | .rnd x nn => Laws.RowFit.rnd x nn
  | .drw x y n => Laws.RowFit.drw x y n
  | .skp x => Laws.RowFit.skp x
  | .sknp x => Laws.RowFit.sknp x
  | .ldVxDt x => Laws.RowFit.ldVxDt x
  | .ldVxK x => Laws.RowFit.ldVxK x
  | .ldDtVx x => Laws.RowFit.ldDtVx x
  | .ldStVx x => Laws.RowFit.ldStVx x
  | .addI x => Laws.RowFit.addI x
  | .ldF x => Laws.RowFit.ldF x
  | .ldB x => Laws.RowFit.ldB x
  | .storeRegs x => Laws.RowFit.storeRegs x
  | .loadRegs x => Laws.RowFit.loadRegs x

@[simp] theorem fieldX_wordXO (f : BitVec 4) (x : Reg) (low : Byte) : fieldX (wordXO f x low) = x := fieldX_wordXK f x low

/-- The row of a well-formed instruction reads every operand back from the instruction's opcode: each operand is a field of the opcode's
format, and the sprite height, the one operand that is not of its field's width, fits in the 4 bits of N. -/
theorem row_reads_encode {i : Instr} (hwf : i.WellFormed) (r : OpRow) (hr : opRows[Laws.RowFit.place i]? = some r) :
    r.instr (encode i) = i := by
  cases i
  case drw x y n =>
    have hn : n < 16 := of_decide_eq_true hwf
    cases hr
    simp [encode, Nat.mod_eq_of_lt hn]
  all_goals cases hr; simp only [encode, fieldNNN_wordA, fieldX_wordXK, fieldNN_wordXK, fieldX_wordXY, fieldY_wordXY, fieldX_wordXO]

theorem decode_encode {i : Instr} (hwf : i.WellFormed) : decode (encode i) = .ok i :=
  decode_encode_of_rowFit (rowFit i) (row_reads_encode hwf)

/-- Settles O1: the row of the instruction fits its opcode, no other row does, and it reads the operands back; the bytes of an opcode make
the opcode again. -/
theorem decodeOfEncode : Obligations.DecodeOfEncode := by
  refine fun i hwf => ⟨decode_encode hwf, fun rest => ?_⟩
  rw [decodeBytes_opcodeBytes, decode_encode hwf]
  rfl

/-- Settles O4, on the ten words and the refused one. -/
theorem sampleWordsDecode : Obligations.SampleWordsDecode := by
  refine ⟨?_, ?_, ?_, ?_, ?_, ?_, ?_, ?_, ?_, ?_, ?_⟩ <;> rfl

end Sys2Proof.Machine
end

section
/-!
PROOFS. The opcode map by digits (spec/30_encoding.md R82 to R93): which digits of an opcode decide whether a row fits it, and that an
opcode is its family and its fields put back together. The statements O2 and O3.
-/
namespace Sys2Proof.Machine

/-! ## An opcode from its family and fields -/

theorem wordA_fields {op : Word} {f : BitVec 4} (hf : op.toNat / 4096 = f.toNat) : wordA f (fieldNNN op) = op := by
  apply BitVec.eq_of_toNat_eq
  simp only [wordA_toNat, ← hf, fieldNNN, BitVec.toNat_setWidth]
  omega

theorem wordXK_fields {op : Word} {f : BitVec 4} (hf : op.toNat / 4096 = f.toNat) :
    wordXK f (fieldX op) (fieldNN op) = op := by
  apply BitVec.eq_of_toNat_eq
  simp only [wordXK_toNat, ← hf, fieldX, fieldNN, BitVec.toNat_setWidth]
  omega

theorem wordXY_fields {op : Word} {f n : BitVec 4} (hf : op.toNat / 4096 = f.toNat) (hn : fieldN op = n.toNat) :
    wordXY f (fieldX op) (fieldY op) n = op := by
  apply BitVec.eq_of_toNat_eq
  simp only [wordXY_toNat, ← hf, ← hn, fieldX, fieldY, fieldN]
  omega

/-! ## The bits a row fixes, as numbers -/

/-- The family digit as a field of four bits. -/
theorem family_toNat (op : Word) : op.toNat / 4096 = (BitVec.ofNat 4 (op.toNat / 4096)).toNat := by
  have h := op.isLt
  rw [BitVec.toNat_ofNat, Nat.mod_eq_of_lt (by omega)]

theorem and_F000_toNat (op : Word) : (op &&& 0xF000).toNat = op.toNat / 4096 * 4096 := by
  have hmask := wordA_mask (BitVec.ofNat 4 (op.toNat / 4096)) (fieldNNN op)
  rw [wordA_fields (family_toNat op)] at hmask
  rw [hmask]
  exact (wordA_toNat _ 0).trans (by simp [-BitVec.toNat_ofNat, ← family_toNat])

theorem and_F00F_toNat (op : Word) : (op &&& 0xF00F).toNat = op.toNat / 4096 * 4096 + op.toNat % 16 := by
  have hn : fieldN op = (BitVec.ofNat 4 (fieldN op)).toNat := by simp [fieldN]
  have hmask := wordXY_mask (BitVec.ofNat 4 (op.toNat / 4096)) (fieldX op) (fieldY op) (BitVec.ofNat 4 (fieldN op))
  rw [wordXY_fields (family_toNat op) hn] at hmask
  rw [hmask, ← fieldN]
  exact (wordXY_toNat _ 0 0 _).trans (by simp [-BitVec.toNat_ofNat, ← family_toNat, ← hn])

theorem and_F0FF_toNat (op : Word) : (op &&& 0xF0FF).toNat = op.toNat / 4096 * 4096 + op.toNat % 256 := by
  have hmask := wordXO_mask (BitVec.ofNat 4 (op.toNat / 4096)) (fieldX op) (fieldNN op)
  rw [wordXO, wordXK_fields (family_toNat op)] at hmask
  rw [hmask]
  exact (wordXK_toNat _ 0 _).trans (by simp [-BitVec.toNat_ofNat, ← family_toNat, fieldNN])

/-! ## Which opcodes a row fits, by digits -/

section Fits
variable {p : Word} (op : Word) (i : Word → Instr)

theorem fits_word_iff : OpRow.fits ⟨0xFFFF, p, i⟩ op = true ↔ op = p := by
  rw [OpRow.fits, beq_iff_eq, show op &&& 0xFFFF = op from BitVec.and_allOnes]

theorem fits_family_iff (hp : p &&& 0xF000 = p) :
    OpRow.fits ⟨0xF000, p, i⟩ op = true ↔ op.toNat / 4096 = p.toNat / 4096 := by
  simp only [OpRow.fits, beq_iff_eq, ← BitVec.toNat_inj, and_F000_toNat]
  have hpat := and_F000_toNat p
  rw [hp] at hpat
  omega

theorem fits_nibble_iff (hp : p &&& 0xF00F = p) :
    OpRow.fits ⟨0xF00F, p, i⟩ op = true ↔ op.toNat / 4096 = p.toNat / 4096 ∧ op.toNat % 16 = p.toNat % 16 := by
  simp only [OpRow.fits, beq_iff_eq, ← BitVec.toNat_inj, and_F00F_toNat]
  have hpat := and_F00F_toNat p
  rw [hp] at hpat
  omega

theorem fits_low_iff (hp : p &&& 0xF0FF = p) :
    OpRow.fits ⟨0xF0FF, p, i⟩ op = true ↔ op.toNat / 4096 = p.toNat / 4096 ∧ op.toNat % 256 = p.toNat % 256 := by
  simp only [OpRow.fits, beq_iff_eq, ← BitVec.toNat_inj, and_F0FF_toNat]
  have hpat := and_F0FF_toNat p
  rw [hp] at hpat
  omega

end Fits

/-! ## Every row can be undone -/

/-- An opcode that fits the row is the opcode of the instruction the row reads from it, which is well formed. -/
def OpRowUndone (r : OpRow) : Prop := ∀ op, r.fits op = true → (r.instr op).WellFormed ∧ encode (r.instr op) = op

section Undone
variable {p : Word} {f : BitVec 4}

theorem undone_word {i : Instr} (hwf : i.WellFormed) (henc : encode i = p) : OpRowUndone ⟨0xFFFF, p, fun _ => i⟩ :=
  fun op hfit => ⟨hwf, henc.trans ((fits_word_iff op _).1 hfit).symm⟩

theorem undone_wordA {i : Addr → Instr} (hp : p &&& 0xF000 = p) (hf : p.toNat / 4096 = f.toNat) (hwf : ∀ n, (i n).WellFormed)
    (henc : ∀ n, encode (i n) = wordA f n) : OpRowUndone ⟨0xF000, p, fun op => i (fieldNNN op)⟩ :=
  fun op hfit => ⟨hwf _, (henc _).trans (wordA_fields (((fits_family_iff op _ hp).1 hfit).trans hf))⟩

theorem undone_wordXK {i : Reg → Byte → Instr} (hp : p &&& 0xF000 = p) (hf : p.toNat / 4096 = f.toNat)
    (hwf : ∀ x nn, (i x nn).WellFormed) (henc : ∀ x nn, encode (i x nn) = wordXK f x nn) :
    OpRowUndone ⟨0xF000, p, fun op => i (fieldX op) (fieldNN op)⟩ :=
  fun op hfit => ⟨hwf _ _, (henc _ _).trans (wordXK_fields (((fits_family_iff op _ hp).1 hfit).trans hf))⟩

theorem undone_wordXY {i : Reg → Reg → Instr} {n : BitVec 4} (hp : p &&& 0xF00F = p) (hf : p.toNat / 4096 = f.toNat)
    (hn : p.toNat % 16 = n.toNat) (hwf : ∀ x y, (i x y).WellFormed) (henc : ∀ x y, encode (i x y) = wordXY f x y n) :
    OpRowUndone ⟨0xF00F, p, fun op => i (fieldX op) (fieldY op)⟩ := by
  intro op hfit
  obtain ⟨hfam, hnib⟩ := (fits_nibble_iff op _ hp).1 hfit
  exact ⟨hwf _ _, (henc _ _).trans (wordXY_fields (hfam.trans hf) (hnib.trans hn))⟩

theorem undone_wordXO {i : Reg → Instr} {low : Byte} (hp : p &&& 0xF0FF = p) (hf : p.toNat / 4096 = f.toNat)
    (hlow : p.toNat % 256 = low.toNat) (hwf : ∀ x, (i x).WellFormed) (henc : ∀ x, encode (i x) = wordXO f x low) :
    OpRowUndone ⟨0xF0FF, p, fun op => i (fieldX op)⟩ := by
  intro op hfit
  obtain ⟨hfam, hbyte⟩ := (fits_low_iff op _ hp).1 hfit
  have hnn : fieldNN op = low := BitVec.eq_of_toNat_eq ((BitVec.toNat_setWidth 8 op).trans (hbyte.trans hlow))
  rw [henc, wordXO, ← hnn]
  exact ⟨hwf _, wordXK_fields (hfam.trans hf)⟩

/-- The height a draw reads from an opcode fits in the 4 bits it was read from. -/
theorem undone_drw : OpRowUndone ⟨0xF000, 0xD000, fun op => .drw (fieldX op) (fieldY op) (fieldN op)⟩ := by
  intro op hfit
  have hheight : fieldN op < 16 := Nat.mod_lt _ (by decide)
  have hn : fieldN op = (BitVec.ofNat 4 (fieldN op)).toNat := by rw [BitVec.toNat_ofNat, Nat.mod_eq_of_lt hheight]
  exact ⟨decide_eq_true hheight, wordXY_fields ((fits_family_iff op _ (by decide)).1 hfit) hn⟩

end Undone

theorem opRowsLow_undone : ∀ r ∈ opRowsLow, OpRowUndone r := by
  simp only [opRowsLow, List.forall_mem_cons]
  exact ⟨undone_word rfl rfl, undone_word rfl rfl,
    undone_wordA (f := 0x1) rfl rfl (fun _ => rfl) fun _ => rfl,
    undone_wordA (f := 0x2) rfl rfl (fun _ => rfl) fun _ => rfl,
    undone_wordXK (f := 0x3) rfl rfl (fun _ _ => rfl) fun _ _ => rfl,
    undone_wordXK (f := 0x4) rfl rfl (fun _ _ => rfl) fun _ _ => rfl,
    undone_wordXY (f := 0x5) (n := 0x0) rfl rfl rfl (fun _ _ => rfl) fun _ _ => rfl,
    undone_wordXK (f := 0x6) rfl rfl (fun _ _ => rfl) fun _ _ => rfl,
    undone_wordXK (f := 0x7) rfl rfl (fun _ _ => rfl) fun _ _ => rfl, List.forall_mem_nil _⟩

theorem opRowsAlu_undone : ∀ r ∈ opRowsAlu, OpRowUndone r := by
  simp only [opRowsAlu, List.forall_mem_cons]
  exact ⟨undone_wordXY (f := 0x8) (n := 0x0) rfl rfl rfl (fun _ _ => rfl) fun _ _ => rfl,
    undone_wordXY (f := 0x8) (n := 0x1) rfl rfl rfl (fun _ _ => rfl) fun _ _ => rfl,
    undone_wordXY (f := 0x8) (n := 0x2) rfl rfl rfl (fun _ _ => rfl) fun _ _ => rfl,
    undone_wordXY (f := 0x8) (n := 0x3) rfl rfl rfl (fun _ _ => rfl) fun _ _ => rfl,
    undone_wordXY (f := 0x8) (n := 0x4) rfl rfl rfl (fun _ _ => rfl) fun _ _ => rfl,
    undone_wordXY (f := 0x8) (n := 0x5) rfl rfl rfl (fun _ _ => rfl) fun _ _ => rfl,
    undone_wordXY (f := 0x8) (n := 0x6) rfl rfl rfl (fun _ _ => rfl) fun _ _ => rfl,
    undone_wordXY (f := 0x8) (n := 0x7) rfl rfl rfl (fun _ _ => rfl) fun _ _ => rfl,
    undone_wordXY (f := 0x8) (n := 0xE) rfl rfl rfl (fun _ _ => rfl) fun _ _ => rfl, List.forall_mem_nil _⟩

theorem opRowsHigh_undone : ∀ r ∈ opRowsHigh, OpRowUndone r := by
  simp only [opRowsHigh, List.forall_mem_cons]
  exact ⟨undone_wordXY (f := 0x9) (n := 0x0) rfl rfl rfl (fun _ _ => rfl) fun _ _ => rfl,
    undone_wordA (f := 0xA) rfl rfl (fun _ => rfl) fun _ => rfl,
    undone_wordA (f := 0xB) rfl rfl (fun _ => rfl) fun _ => rfl,
    undone_wordXK (f := 0xC) rfl rfl (fun _ _ => rfl) fun _ _ => rfl,
    undone_drw,
    undone_wordXO (f := 0xE) (low := 0x9E) rfl rfl rfl (fun _ => rfl) fun _ => rfl,
    undone_wordXO (f := 0xE) (low := 0xA1) rfl rfl rfl (fun _ => rfl) fun _ => rfl, List.forall_mem_nil _⟩

theorem opRowsF_undone : ∀ r ∈ opRowsF, OpRowUndone r := by
  simp only [opRowsF, List.forall_mem_cons]
  exact ⟨undone_wordXO (f := 0xF) (low := 0x07) rfl rfl rfl (fun _ => rfl) fun _ => rfl,
    undone_wordXO (f := 0xF) (low := 0x0A) rfl rfl rfl (fun _ => rfl) fun _ => rfl,
    undone_wordXO (f := 0xF) (low := 0x15) rfl rfl rfl (fun _ => rfl) fun _ => rfl,
    undone_wordXO (f := 0xF) (low := 0x18) rfl rfl rfl (fun _ => rfl) fun _ => rfl,
    undone_wordXO (f := 0xF) (low := 0x1E) rfl rfl rfl (fun _ => rfl) fun _ => rfl,
    undone_wordXO (f := 0xF) (low := 0x29) rfl rfl rfl (fun _ => rfl) fun _ => rfl,
    undone_wordXO (f := 0xF) (low := 0x33) rfl rfl rfl (fun _ => rfl) fun _ => rfl,
    undone_wordXO (f := 0xF) (low := 0x55) rfl rfl rfl (fun _ => rfl) fun _ => rfl,
    undone_wordXO (f := 0xF) (low := 0x65) rfl rfl rfl (fun _ => rfl) fun _ => rfl, List.forall_mem_nil _⟩

theorem opRows_undone : ∀ r ∈ opRows, OpRowUndone r := by
  simp only [opRows, List.forall_mem_append]
  exact ⟨opRowsLow_undone, opRowsAlu_undone, opRowsHigh_undone, opRowsF_undone⟩

/-- Settles O2: the decoded instruction was read by a row that fits, and every row can be undone. -/
theorem encodeOfDecode : Obligations.EncodeOfDecode := by
  intro op i hdec
  obtain ⟨r, hmem, hfit, rfl⟩ := (decode_ok_iff op i).1 hdec
  exact opRows_undone r hmem op hfit

/-! ## The opcodes no row fits -/

/-- No row fits an opcode exactly when its digits are those of an invalid opcode: family by family, the rows of a family leave the listed
digits over, and no other family's rows fit. -/
theorem no_row_fits_iff (op : Word) : (∀ r ∈ opRows, r.fits op = false) ↔ InvalidByDigits op := by
  have hfam : op.toNat / 4096 < 16 := by have := op.isLt; omega
  simp only [opRows, opRowsLow, opRowsAlu, opRowsHigh, opRowsF, List.forall_mem_append, List.forall_mem_cons, ← Bool.not_eq_true]
  simp (disch := decide) only [fits_word_iff, fits_family_iff, fits_nibble_iff, fits_low_iff]
  simp only [InvalidByDigits, ← BitVec.toNat_inj, ne_eq, BitVec.reduceToNat, Nat.reduceDiv, Nat.reduceMod, List.mem_cons,
    List.not_mem_nil, false_imp_iff, implies_true, and_true, or_false]
  generalize op.toNat = w at *
  interval_cases h : w / 4096 <;> simp <;> omega

/-- Settles O3: a refused opcode is one that no row fits, and a refusal always names the opcode. -/
theorem invalidOpcodesExactly : Obligations.InvalidOpcodesExactly := by
  refine fun op => ⟨?refused, fun e he => ((decode_error_iff op e).1 he).1⟩
  case refused => rw [decode_error_iff, eq_self_iff_true, true_and, no_row_fits_iff]

end Sys2Proof.Machine
end

section
/-!
PROOFS. How each instruction leaves `pc`, the stack, the status and the list of memory (spec/10_state.md R26, R27, R39): one lemma for each,
from which the statements about every step follow. The statements O9 and O10.
-/
namespace Sys2Proof.Machine

/-! ## The program counter -/

section Pc
variable {w : Word}

theorem add_two_toNat (h : w.toNat < 0x1000) : (w + 2).toNat = w.toNat + 2 := by bv_omega

theorem add_four_toNat (h : w.toNat < 0x1000) : (w + 4).toNat = w.toNat + 4 := by bv_omega

theorem State.skipIf_pc_toNat {s : State} (h : s.pc.toNat < 0x1000) (c : Bool) :
    (s.skipIf c).pc.toNat = if c = true then s.pc.toNat + 4 else s.pc.toNat + 2 := by
  cases c
  · exact add_two_toNat h
  · exact add_four_toNat h

end Pc

theorem zextByte_toNat (b : Byte) : (zextByte b).toNat = b.toNat := BitVec.toNat_setWidth_of_le (by decide)

theorem zextAddr_add_zextByte_toNat (nnn : Addr) (b : Byte) : (zextAddr nnn + zextByte b).toNat = nnn.toNat + b.toNat := by
  have hn := nnn.isLt
  have hb := b.isLt
  rw [BitVec.toNat_add, zextAddr_toNat, zextByte_toNat, Nat.mod_eq_of_lt (by omega)]

/-! ## The two meanings whose next state is no chain of single writes -/

theorem exec_ldVxK_cases {x : Reg} {s t : State} (e : exec (.ldVxK x) s = .next t) :
    ((∀ k, s.keyDown k = false) ∧ t = s) ∨
      ∃ k, s.keyDown k = true ∧ t = (s.setReg x (BitVec.ofNat 8 k.val)).advance := by
  cases hfirst : s.firstKey with
  | none =>
    have hnone := s.firstKey_none.1 hfirst
    cases (exec_ldVxK_of_no_key hnone x).symm.trans e
    exact .inl ⟨hnone, rfl⟩
  | some k =>
    cases (exec_ldVxK_of_firstKey hfirst x).symm.trans e
    exact .inr ⟨k, (s.firstKey_some k hfirst).1, rfl⟩

/-- The row of register loads of `Fx65` changes the registers alone. -/
theorem exec_loadRegs_eq {x : Reg} {s t : State} (e : exec (.loadRegs x) s = .next t) :
    t = ({ s with v := t.v }.bumpI x).advance := by
  cases e
  rw [(State.foldl_setReg (fun k => s.readMem (s.dataAddr k.val)) (regsUpTo x) s).2]
  rfl

/-! ## The program counter, instruction by instruction -/

/-- The key a skip tests is the low nibble of the register. -/
theorem lowNibble_eq_ofNat (b : Byte) : lowNibble b = Fin.ofNat 16 b.toNat := rfl

/-- The table of spec/10_state.md R26, from an address a step can fetch at. -/
theorem exec_pc_toNat {i : Instr} {s t : State} (hpc : s.pc.toNat < 0x1000) (e : exec i s = .next t) : t.pc.toNat = nextPc s i := by
  cases i
  case jp nnn => cases e; exact zextAddr_toNat nnn
  case call nnn => cases e; exact zextAddr_toNat nnn
  case jpV0 nnn => cases e; exact zextAddr_add_zextByte_toNat nnn _
  case ret =>
    cases e
    rcases s.pop_cases with ⟨h, hpop⟩ | ⟨h, hpop⟩ <;> simp [hpop, nextPc, h]
  case seImm | sneImm | seReg | sneReg | skp | sknp =>
    cases e
    simp only [State.skipIf_pc_toNat hpc, nextPc, lowNibble_eq_ofNat, beq_iff_eq, bne_iff_ne, Bool.not_eq_true']
  case ldVxK x =>
    rcases exec_ldVxK_cases e with ⟨hnone, rfl⟩ | ⟨k, hk, rfl⟩
    · rw [nextPc, if_neg (by simp [hnone])]
    · rw [nextPc, if_pos ⟨k, hk⟩]
      exact add_two_toNat hpc
  case loadRegs x => rw [exec_loadRegs_eq e]; exact add_two_toNat hpc
  case ldB x => cases e; rw [State.advance_pc, State.writeBytes_pc, add_two_toNat hpc]; rfl
  case storeRegs x => cases e; rw [State.advance_pc, State.bumpI_pc, State.writeBytes_pc, add_two_toNat hpc]; rfl
  all_goals cases e; exact add_two_toNat hpc

/-- Settles O10: every meaning answers a next state, and its `pc` is that of the table. -/
theorem programCounterAfterEveryInstruction : Obligations.ProgramCounterAfterEveryInstruction := by
  intro i s hpc
  obtain ⟨t, e⟩ := exec_next i s
  exact ⟨t, e, exec_pc_toNat hpc e⟩

/-! ## The stack -/

/-- What an instruction does to the stack: a call with room pushes the address after it, a return from a used entry drops it, and nothing
else touches the stack. -/
theorem exec_stack_cases {i : Instr} {s t : State} (e : exec i s = .next t) :
    (∃ nnn, i = .call nnn ∧ ∃ h : s.sp.val < 16, t.sp.val = s.sp.val + 1 ∧ t.stack = s.stack.set s.sp.val (s.pc + 2) h) ∨
      (i = .ret ∧ t.sp.val + 1 = s.sp.val ∧ t.stack = s.stack) ∨ (t.sp = s.sp ∧ t.stack = s.stack) := by
  cases i
  case call nnn =>
    cases e
    rcases s.push_cases (s.pc + 2) with ⟨-, hpush⟩ | ⟨h, hpush⟩ <;> rw [hpush]
    · exact .inr (.inr ⟨rfl, rfl⟩)
    · exact .inl ⟨nnn, rfl, h, rfl, rfl⟩
  case ret =>
    cases e
    rcases s.pop_cases with ⟨-, hpop⟩ | ⟨h, hpop⟩ <;> rw [hpop]
    · exact .inr (.inr ⟨rfl, rfl⟩)
    · exact .inr (.inl ⟨rfl, Nat.sub_add_cancel (Nat.pos_of_ne_zero h), rfl⟩)
  all_goals
    have hframe := exec_unchanged _ s t e
    exact .inr (.inr ⟨hframe .sp (by simp [written]), Vector.ext fun k hk => hframe .stack (by simp [written]) ⟨k, hk⟩⟩)

/-! ## The status -/

/-- What an instruction does to the status: a call on a full stack and a return on an empty one raise their conditions, and nothing else
writes it. -/
theorem exec_status_cases {i : Instr} {s t : State} (e : exec i s = .next t) :
    ((∃ nnn, i = .call nnn) ∧ s.sp.val = 16 ∧ t.status = .reported .stackOverflow) ∨
      (i = .ret ∧ s.sp.val = 0 ∧ t.status = .reported .stackUnderflow) ∨
      (¬((∃ nnn, i = .call nnn) ∧ s.sp.val = 16) ∧ ¬(i = .ret ∧ s.sp.val = 0) ∧ t.status = s.status) := by
  cases i
  case call nnn =>
    cases e
    rcases s.push_cases (s.pc + 2) with ⟨h, hpush⟩ | ⟨h, hpush⟩ <;> rw [hpush]
    · exact .inl ⟨⟨nnn, rfl⟩, h, rfl⟩
    · exact .inr (.inr ⟨fun hfull => absurd hfull.2 h.ne, by simp, rfl⟩)
  case ret =>
    cases e
    rcases s.pop_cases with ⟨h, hpop⟩ | ⟨h, hpop⟩ <;> rw [hpop]
    · exact .inr (.inl ⟨rfl, h, rfl⟩)
    · exact .inr (.inr ⟨by simp, fun hempty => h hempty.2, rfl⟩)
  all_goals exact .inr (.inr ⟨by simp, by simp, exec_unchanged _ s t e .status (by simp [written])⟩)

/-- Settles O9: the three cases of a step, the middle one by what the instruction does to the status, which the step began as OK. -/
theorem statusOfEveryStep : Obligations.StatusOfEveryStep := by
  intro s
  obtain ⟨t, e⟩ := step_next s
  refine ⟨t, e, ?_⟩
  rcases step_cases s with ⟨hout, hstep⟩ | ⟨hin, i, hdec, hstep⟩ | ⟨hin, r, hdec, hstep⟩
  · cases hstep.symm.trans e
    exact .inl ⟨hout, rfl⟩
  · have hruns : Runs s i := ⟨hin, hdec⟩
    rcases exec_status_cases (hstep.symm.trans e) with ⟨⟨nnn, rfl⟩, hfull, hst⟩ | ⟨rfl, hempty, hst⟩ | ⟨hcall, hret, hst⟩
    · exact .inr (.inr (.inl ⟨⟨nnn, hruns⟩, hfull, hst⟩))
    · exact .inr (.inr (.inr (.inl ⟨hruns, hempty, hst⟩)))
    · exact .inr (.inr (.inr (.inr ⟨i, hruns, hcall, hret, hst⟩)))
  · cases hstep.symm.trans e
    rw [((decode_error_iff s.fetch r).1 hdec).1] at hdec
    exact .inr (.inl ⟨⟨hin, hdec⟩, rfl⟩)

/-! ## Memory -/

/-- An instruction leaves memory as some row of writes leaves it, the empty row where it does not store. -/
theorem exec_mem_eq_writeBytes {i : Instr} {s t : State} (e : exec i s = .next t) :
    ∃ d bs, t.mem = (s.writeBytes d bs).mem := by
  cases i
  case ldB => cases e; exact ⟨_, _, rfl⟩
  case storeRegs => cases e; exact ⟨_, _, rfl⟩
  case ret =>
    cases e
    rcases s.pop_cases with ⟨-, hpop⟩ | ⟨-, hpop⟩ <;> rw [hpop] <;> exact ⟨0, [], rfl⟩
  case call =>
    cases e
    rcases s.push_cases (s.pc + 2) with ⟨-, hpush⟩ | ⟨_, hpush⟩ <;> rw [hpush] <;> exact ⟨0, [], rfl⟩
  case ldVxK => rcases exec_ldVxK_cases e with ⟨-, rfl⟩ | ⟨k, -, rfl⟩ <;> exact ⟨0, [], rfl⟩
  case loadRegs => exact ⟨0, [], (congrArg State.mem (exec_loadRegs_eq e)).trans rfl⟩
  all_goals cases e; exact ⟨0, [], rfl⟩

end Sys2Proof.Machine
end

section
/-!
PROOFS. The invariant of the reachable states (spec/10_state.md section 9): reset meets it, and every instruction, every step and every
boundary operation keeps it, so every schedule does. The statements O12, O13 and O14.
-/
namespace Sys2Proof.Machine

/-! ## Reset -/

/-- The reset operation lists no byte, puts `pc` to 0x200 and leaves no stack entry in use. -/
theorem State.resetOp_inv (s : State) : Inv s.resetOp where
  mem_wf := Memory.nil_wf _
  pc_le := le_max_of_le_left (by decide : 0x200 ≤ 0x10FE)
  stack_entry k hk := absurd hk (Nat.not_lt_zero _)

/-- Settles O12: `State.reset` is its own reset. -/
theorem resetMeetsInvariant : Obligations.ResetMeetsInvariant :=
  show Inv State.reset from State.resetOp_reset ▸ State.reset.resetOp_inv

/-! ## Instructions -/

/-- No instruction writes the parameters. -/
theorem exec_config {i : Instr} {s t : State} (e : exec i s = .next t) : t.config = s.config :=
  exec_unchanged i s t e .config (by cases i <;> simp [written])

/-- Every program counter of the table of spec/10_state.md R26 is within the bound, the popped one because it is a return address or the
default. -/
theorem nextPc_le {s : State} (hpc : s.pc.toNat < 0x1000) (hinv : Inv s) (i : Instr) : nextPc s i ≤ pcBound s.config := by
  have hwithin : ∀ n, n ≤ 0x10FE → n ≤ pcBound s.config := fun n => le_max_of_le_left
  cases i
  case ret =>
    rw [nextPc]
    split
    case isTrue => exact le_max_right _ _
    case isFalse h =>
      have hentry := (hinv.stack_entry ⟨s.sp.val - 1, by omega⟩ (show s.sp.val - 1 < s.sp.val by omega)).2
      exact hwithin _ (hentry.trans (by decide))
  case jp nnn | call nnn | jpV0 nnn =>
    refine hwithin _ ?_
    have hn := nnn.isLt
    have hv := (s.reg 0).isLt
    simp only [nextPc]
    omega
  case seImm | sneImm | seReg | sneReg | skp | sknp | ldVxK =>
    refine hwithin _ ?_
    simp only [nextPc]
    split <;> omega
  all_goals exact hwithin _ (show s.pc.toNat + 2 ≤ 0x10FE by omega)

/-- A call pushes the address after it, which is between 2 and 0x1001; nothing else enters the stack. -/
theorem exec_stack_entry {i : Instr} {s t : State} (hpc : s.pc.toNat < 0x1000) (hinv : Inv s) (e : exec i s = .next t) (k : Fin 16)
    (hk : k.val < t.sp.val) : 2 ≤ (t.stack[k]).toNat ∧ (t.stack[k]).toNat ≤ 0x1001 := by
  rcases exec_stack_cases e with ⟨nnn, -, hroom, hsp, hst⟩ | ⟨-, hsp, hst⟩ | ⟨hsp, hst⟩
  · rw [hst, Fin.getElem_fin, Vector.getElem_set]
    split
    case isTrue => rw [add_two_toNat hpc]; omega
    case isFalse h => exact hinv.stack_entry k (by omega)
  · rw [hst]; exact hinv.stack_entry k (by omega)
  · rw [hst]; exact hinv.stack_entry k (hsp ▸ hk)

theorem exec_keeps_inv {i : Instr} {s t : State} (hpc : s.pc.toNat < 0x1000) (hinv : Inv s) (e : exec i s = .next t) : Inv t where
  mem_wf := by
    obtain ⟨d, bs, hmem⟩ := exec_mem_eq_writeBytes e
    rw [hmem, exec_config e]
    exact s.writeBytes_wf d bs hinv.mem_wf
  pc_le := by
    rw [exec_pc_toNat hpc e, exec_config e]
    exact nextPc_le hpc hinv i
  stack_entry := exec_stack_entry hpc hinv e

/-! ## Steps -/

/-- The invariant does not speak of the status. -/
theorem Inv.beginStep {s : State} (h : Inv s) : Inv s.beginStep := ⟨h.mem_wf, h.pc_le, h.stack_entry⟩

theorem Inv.stepOutOfBounds {s : State} (h : Inv s) : Inv s.stepOutOfBounds := ⟨h.mem_wf, h.pc_le, h.stack_entry⟩

theorem Inv.stepInvalid {s : State} (h : Inv s) (hpc : s.pc.toNat < 0x1000) : Inv s.stepInvalid where
  mem_wf := h.mem_wf
  pc_le := le_max_of_le_left (by rw [State.stepInvalid_pc, add_two_toNat hpc]; omega)
  stack_entry := h.stack_entry

/-- Settles O13: each of the three cases of a step keeps the invariant. -/
theorem everyStepKeepsInvariant : Obligations.EveryStepKeepsInvariant := by
  intro s t hinv e
  rcases step_cases s with ⟨-, hstep⟩ | ⟨hin, i, -, hstep⟩ | ⟨hin, -, -, hstep⟩
  · cases hstep.symm.trans e
    exact hinv.beginStep.stepOutOfBounds
  · exact exec_keeps_inv (s := s.beginStep) hin hinv.beginStep (hstep.symm.trans e)
  · cases hstep.symm.trans e
    exact hinv.beginStep.stepInvalid hin

/-! ## Schedules -/

/-- What `load` does: a row of writes from 0x200 on, or nothing. -/
theorem State.load_eq_writeBytes (s : State) (source : Option (List Byte)) : ∃ bs, s.load source = s.writeBytes 0x200 bs := by
  cases source with
  | none => exact ⟨[], rfl⟩
  | some bytes =>
    by_cases h : bytes.length ≤ maxRom
    · exact ⟨bytes, s.load_of_length_le h⟩
    · exact ⟨[], if_pos (not_le.1 h)⟩

theorem Inv.writeBytes {s : State} (h : Inv s) (d : Nat) (bs : List Byte) : Inv (s.writeBytes d bs) where
  mem_wf := by rw [State.writeBytes_config]; exact s.writeBytes_wf d bs h.mem_wf
  pc_le := by rw [State.writeBytes_pc, State.writeBytes_config]; exact h.pc_le
  stack_entry := by simpa only [State.writeBytes_sp, State.writeBytes_stack] using h.stack_entry

/-- What `tick_timer` does: a write of DT, or nothing, which is the write of the old DT. -/
theorem State.tickTimer_eq_setDt (s : State) : ∃ b, s.tickTimer = s.setDt b := by
  by_cases h : s.dt = 0
  · exact ⟨s.dt, s.tickTimer_of_dt_eq_zero h⟩
  · exact ⟨s.dt - 1, s.tickTimer_of_dt_ne_zero h⟩

/-- No step writes the parameters. -/
theorem step_config {s t : State} (e : step s = .next t) : t.config = s.config := by
  by_contra h
  obtain ⟨i, -, he, -⟩ := step_changed_part s t .config (by decide) (by decide) e h
  exact h (exec_config (s := s.beginStep) he)

/-- Every boundary operation answers a next state, keeps the invariant and leaves the parameters. -/
theorem perform_keeps_inv (o : HostOp) {s : State} (hinv : Inv s) : ∃ t, perform o s = .next t ∧ Inv t ∧ t.config = s.config := by
  cases o with
  | reset => exact ⟨_, rfl, s.resetOp_inv, s.resetOp_config⟩
  | load source =>
    obtain ⟨bs, hload⟩ := s.load_eq_writeBytes source
    exact ⟨_, congrArg Host.Outcome.next hload, hinv.writeBytes _ bs, s.writeBytes_config _ bs⟩
  | step =>
    obtain ⟨t, e⟩ := step_next s
    exact ⟨t, e, everyStepKeepsInvariant s t hinv e, step_config e⟩
  | tickTimer =>
    obtain ⟨b, htick⟩ := s.tickTimer_eq_setDt
    exact ⟨_, congrArg Host.Outcome.next htick, ⟨hinv.mem_wf, hinv.pc_le, hinv.stack_entry⟩, rfl⟩
  | writeKeys k => exact ⟨_, rfl, ⟨hinv.mem_wf, hinv.pc_le, hinv.stack_entry⟩, rfl⟩
  | clearRedraw => exact ⟨_, rfl, ⟨hinv.mem_wf, hinv.pc_le, hinv.stack_entry⟩, rfl⟩

theorem performAll_cons {o : HostOp} {s t : State} (h : perform o s = .next t) (os : List HostOp) :
    performAll (o :: os) s = performAll os t := by
  simp only [performAll, h]

/-- Settles O14, by induction on the schedule, with the invariant kept by each of its operations. -/
theorem everyScheduleKeepsInvariant : Obligations.EveryScheduleKeepsInvariant := by
  intro os
  induction os with
  | nil => exact fun s hinv => ⟨s, rfl, hinv, rfl⟩
  | cons o os ih =>
    intro s hinv
    obtain ⟨t, hperform, hinvt, hconfig⟩ := perform_keeps_inv o hinv
    obtain ⟨u, hrest, hinvu, hconfigu⟩ := ih t hinvt
    exact ⟨u, (performAll_cons hperform os).trans hrest, hinvu, hconfigu.trans hconfig⟩

end Sys2Proof.Machine
end

section
/-!
PROOFS. Frames: how they follow one another, and the frames of the single writes no earlier part speaks of.
-/
namespace Sys2Proof.Machine

/-! ## Frames of several operations -/

theorem samePart.trans {p : Part} {s t u : State} (h : samePart s t p) (h' : samePart t u p) : samePart s u p := by
  cases p <;> simp_all [samePart]

theorem samePart.symm {p : Part} {s t : State} (h : samePart s t p) : samePart t s p := by
  cases p <;> simp_all [samePart]

theorem UnchangedBut.trans {ps : List Part} {s t u : State} (h : UnchangedBut ps s t) (h' : UnchangedBut ps t u) :
    UnchangedBut ps s u := fun p hp => (h p hp).trans (h' p hp)

theorem UnchangedBut.mono {ps qs : List Part} {s t : State} (h : UnchangedBut ps s t) (hsub : ps ⊆ qs) : UnchangedBut qs s t :=
  fun p hp => h p fun hps => hp (hsub hps)

/-- A part that is the same in both states can be taken off the list of those that may differ. -/
theorem UnchangedBut.of_cons {p : Part} {ps : List Part} {s t : State} (h : UnchangedBut (p :: ps) s t) (hp : samePart s t p) :
    UnchangedBut ps s t := by
  intro q hq
  by_cases hqp : q = p
  · exact hqp ▸ hp
  · exact h q (by simp [hqp, hq])

/-- Where two states agree, their next states agree but for what the two steps write. -/
theorem UnchangedBut.of_frames {ps qs : List Part} {s t s' t' : State} (h : UnchangedBut ps s t) (hs : UnchangedBut qs s s')
    (ht : UnchangedBut qs t t') : UnchangedBut (ps ++ qs) s' t' := by
  intro p hp
  rw [List.mem_append, not_or] at hp
  exact ((hs p hp.2).symm.trans (h p hp.1)).trans (ht p hp.2)

/-! ## Frames of single writes -/

theorem State.setPc_unchanged (s : State) (w : Word) : UnchangedBut [.pc] s (s.setPc w) := by
  intro p hp
  cases p
  case pc => exact absurd (List.mem_singleton_self _) hp
  all_goals simp [samePart]

theorem State.raise_unchanged (s : State) (c : Condition) : UnchangedBut [.status] s (s.raise c) := by
  intro p hp
  cases p
  case status => exact absurd (List.mem_singleton_self _) hp
  all_goals simp [samePart]

/-- A write of the stack and its pointer changes these two parts at most. -/
theorem State.setStack_unchanged (s : State) (st : Vector Word 16) (n : Fin 17) :
    UnchangedBut [.sp, .stack] s { s with stack := st, sp := n } := by
  intro p hp
  cases p
  case sp | stack => exact absurd (by simp) hp
  all_goals simp [samePart, State.reg, State.readMem, State.cell, State.keyDown]

theorem State.setSp_unchanged (s : State) (n : Fin 17) : UnchangedBut [.sp] s { s with sp := n } := by
  intro p hp
  cases p
  case sp => exact absurd (List.mem_singleton_self _) hp
  all_goals simp [samePart, State.reg, State.readMem, State.cell, State.keyDown]

theorem State.writeKeys_unchanged (s : State) (ks : Keys) : UnchangedBut [.key] s (s.writeKeys ks) := by
  intro p hp
  cases p
  case key => exact absurd (List.mem_singleton_self _) hp
  all_goals simp [samePart]

theorem State.clearRedraw_unchanged (s : State) : UnchangedBut [.redraw] s s.clearRedraw := by
  intro p hp
  cases p
  case redraw => exact absurd (List.mem_singleton_self _) hp
  all_goals simp [samePart]

end Sys2Proof.Machine
end

section
/-!
PROOFS. The step around a meaning (spec/40_step_cycle.md R110 to R116): the instruction a step runs, a stored opcode, the out-of-bounds step
for ever, and the status no step reads. The statements O5, O6, O8 and O57.
-/
namespace Sys2Proof.Machine

/-- Settles O5: the two bytes at `pc` and `pc + 1` are the fetched opcode, so the step runs the instruction they decode to. -/
theorem stepRunsDecodedInstruction : Obligations.StepRunsDecodedInstruction := by
  intro s i hpc hdec
  have hruns : Runs s i := ⟨hpc, hdec⟩
  exact ⟨hruns.step_eq, s.beginStep_unchanged, s.beginStep_status⟩

/-- Below 0x1000 an opcode is placed by two writes, its high byte at `pc` and its low byte after it. -/
theorem State.placeOpcode_of_lt {s : State} (hpc : s.pc.toNat < 0x1000) (op : Word) :
    s.placeOpcode op = (s.writeMem s.pc.toNat ((op >>> 8).setWidth 8)).writeMem (s.pc.toNat + 1) (op.setWidth 8) := by
  have hin : ¬s.outOfBounds = true := by simpa [State.outOfBounds] using hpc
  rw [State.placeOpcode, if_neg hin]
  rfl

/-- A placed opcode of a well-formed instruction is run next. -/
theorem runs_placeOpcode {s : State} (hpc : s.pc.toNat < 0x1000) {i : Instr} (hwf : i.WellFormed) : Runs (s.placeOpcode (encode i)) i := by
  refine ⟨?bound, ?fetched⟩
  case bound => rw [State.placeOpcode_of_lt hpc]; exact hpc
  case fetched => rw [State.fetch_placeOpcode, decode_encode hwf]

/-- Settles O6: the two writes place the opcode where the next step fetches it. -/
theorem storedOpcodeIsRunNext : Obligations.StoredOpcodeIsRunNext := by
  intro s i hwf hpc
  have hruns := runs_placeOpcode hpc hwf
  rw [State.placeOpcode_of_lt hpc] at hruns
  exact hruns.step_eq

/-- Of the three cases of a step, a `pc` out of bounds leaves the first. -/
theorem step_of_outOfBounds {s : State} (h : 0x1000 ≤ s.pc.toNat) : step s = .next s.beginStep.stepOutOfBounds := by
  rcases step_cases s with ⟨-, hstep⟩ | ⟨hin, -⟩ | ⟨hin, -⟩
  · exact hstep
  · exact absurd h hin.not_ge
  · exact absurd h hin.not_ge

theorem State.stepOutOfBounds_unchanged (s : State) : UnchangedBut [.status] s s.beginStep.stepOutOfBounds :=
  s.beginStep_unchanged.trans (State.raise_unchanged _ _)

/-- Settles O8: the first step writes the status alone, and the state it answers is a fixed point of `step`. -/
theorem outOfBoundsStepsForever : Obligations.OutOfBoundsStepsForever := by
  intro s n hout
  have hfixed : step s.beginStep.stepOutOfBounds = .next s.beginStep.stepOutOfBounds :=
    step_of_outOfBounds (s := s.beginStep.stepOutOfBounds) hout
  refine ⟨s.beginStep.stepOutOfBounds, ?_, s.stepOutOfBounds_unchanged, rfl⟩
  rw [List.replicate_succ, performAll_step_cons (step_of_outOfBounds hout), performAll_replicate_step_of_fixed hfixed]

/-- A step reads the state only after it has cleared the status. -/
theorem step_congr_beginStep {s t : State} (h : s.beginStep = t.beginStep) : step s = step t := by
  simp only [step, h]

/-- Settles O57: with the status cleared the two states are one. -/
theorem statusIsNotObservable : Obligations.StatusIsNotObservable :=
  fun _ _ => step_congr_beginStep rfl

end Sys2Proof.Machine
end

section
/-!
PROOFS. The end of a run, the model's own definition (spec/50_host_interface.md R276, log 22): an ended state runs a jump to itself, and
every step, tick, key write and redraw clear keeps that. The statement O60.
-/
namespace Sys2Proof.Machine

/-! ## The end of a run -/

/-- An ended state is one that runs a jump to its own address. -/
theorem State.ended_iff (s : State) : s.ended = true ↔ ∃ nnn, Runs s (.jp nnn) ∧ s.pc.toNat = nnn.toNat := by
  have htarget : ∀ nnn : Addr, zextAddr nnn = s.pc ↔ s.pc.toNat = nnn.toNat := fun nnn => by
    rw [← BitVec.toNat_inj, zextAddr_toNat, eq_comm]
  constructor
  · intro h
    obtain ⟨hin, hjump⟩ := Bool.and_eq_true_iff.1 h
    split at hjump
    next nnn hdec => exact ⟨nnn, ⟨by simpa [State.outOfBounds] using hin, hdec⟩, (htarget nnn).1 (of_decide_eq_true hjump)⟩
    next => cases hjump
  · rintro ⟨nnn, hruns, hpc⟩
    have hin : s.outOfBounds = false := by simpa [State.outOfBounds] using hruns.1
    simp only [State.ended, hin, hruns.2, (htarget nnn).2 hpc, decide_true, Bool.not_false, Bool.and_self]

/-- Every boundary operation but reset and load keeps an ended run ended, and changes DT, the keys, the redraw flag and the status at
most. -/
theorem perform_of_ended {o : HostOp} (hreset : o ≠ .reset) (hload : ∀ source, o ≠ .load source) {s : State} (h : s.ended = true) :
    ∃ t, perform o s = .next t ∧ UnchangedBut [.dt, .key, .redraw, .status] s t ∧ t.ended = true := by
  cases o with
  | reset => exact absurd rfl hreset
  | load source => exact absurd rfl (hload source)
  | step =>
    obtain ⟨nnn, hruns, hpc⟩ := s.ended_iff.1 h
    exact ⟨_, hruns.step_jp_self hpc, s.beginStep_unchanged.mono (by simp), h⟩
  | tickTimer =>
    obtain ⟨b, htick⟩ := s.tickTimer_eq_setDt
    exact ⟨_, congrArg Host.Outcome.next htick, (s.setDt_unchangedBut b).mono (by simp), h⟩
  | writeKeys ks => exact ⟨_, rfl, (s.writeKeys_unchanged ks).mono (by simp), h⟩
  | clearRedraw => exact ⟨_, rfl, s.clearRedraw_unchanged.mono (by simp), h⟩

/-- Settles O60, by induction on the list of operations, each of which keeps the run ended. -/
theorem endedRunStaysEnded : Obligations.EndedRunStaysEnded := by
  refine ⟨State.ended_iff, fun os => ?_⟩
  induction os with
  | nil => exact fun s _ h => ⟨s, rfl, UnchangedBut.refl _ s, h⟩
  | cons o os ih =>
    intro s hops h
    obtain ⟨hop, hrest⟩ := List.forall_mem_cons.1 hops
    obtain ⟨t, hperform, hframe, hended⟩ := perform_of_ended hop.1 hop.2 h
    obtain ⟨u, hall, hframe', hended'⟩ := ih t hrest hended
    exact ⟨u, (performAll_cons hperform os).trans hall, hframe.trans hframe', hended'⟩

end Sys2Proof.Machine
end

section
/-!
PROOFS. Control flow and the skips (spec/41_control_flow.md, spec/42_skips.md, spec/46_keys.md): the effect of `00E0`, `00EE`, `2nnn`,
`Bnnn` and of the six skips. The statements O16, O17, O19, O20, O22 and O23.
-/
namespace Sys2Proof.Machine

/-! ## Clear, return, call, jump with offset -/

theorem exec_cls (s : State) : exec .cls s = .next (s.paint Framebuffer.clear).advance := rfl

/-- Settles O16: the frame is the row of `00E0` in the table of written parts. -/
theorem clearScreenResult : Obligations.ClearScreenResult :=
  fun s => ⟨_, exec_cls s, exec_unchanged _ s _ (exec_cls s), Framebuffer.cell_clear, rfl, rfl⟩

/-- Settles O17, by the two cases of a pop. -/
theorem returnResult : Obligations.ReturnResult := by
  refine fun s => ⟨_, rfl, ?_⟩
  rcases s.pop_cases with ⟨h, hpop⟩ | ⟨h, hpop⟩
  · rw [dif_pos h, hpop]
    exact ⟨((s.raise_unchanged _).mono (by simp)).trans ((State.setPc_unchanged _ _).mono (by simp)), rfl, rfl⟩
  · rw [dif_neg h, hpop]
    exact ⟨((s.setSp_unchanged _).mono (by simp)).trans ((State.setPc_unchanged _ _).mono (by simp)), rfl, rfl⟩

/-- Settles O19, by the two cases of a push. -/
theorem callResult : Obligations.CallResult := by
  refine fun s nnn => ⟨_, rfl, zextAddr_toNat nnn, ?_⟩
  rcases s.push_cases (s.pc + 2) with ⟨h, hpush⟩ | ⟨h, hpush⟩
  · rw [dif_neg h.not_lt, hpush]
    exact ⟨((s.raise_unchanged _).mono (by simp)).trans ((State.setPc_unchanged _ _).mono (by simp)), rfl⟩
  · rw [dif_pos h, hpush]
    refine ⟨((s.setStack_unchanged _ _).mono (by simp)).trans ((State.setPc_unchanged _ _).mono (by simp)), ?others, ?entry, rfl⟩
    case others => exact fun k hk => Vector.getElem_set_ne h k.isLt (by simpa [eq_comm] using hk)
    case entry => exact Vector.getElem_set_self _

/-- Settles O20: the sum of a 12-bit address and a byte fits in `pc`. -/
theorem jumpWithOffsetResult : Obligations.JumpWithOffsetResult :=
  fun s nnn => ⟨_, rfl, s.setPc_unchanged _, zextAddr_add_zextByte_toNat nnn _⟩

/-! ## Skips -/

/-- A skip changes `pc` alone, to the address two words on where its condition holds. -/
theorem State.skipIf_result (s : State) {c : Bool} {p : Prop} [Decidable p] (hc : c = true ↔ p) :
    UnchangedBut [.pc] s (s.skipIf c) ∧ (s.skipIf c).pc = if p then s.pc + 4 else s.pc + 2 := by
  simp only [s.skipIf_pc, hc, and_true]
  exact s.setPc_unchanged _

/-- Settles O22: the four skips with their conditions. -/
theorem skipResults : Obligations.SkipResults :=
  fun s _ _ _ => ⟨⟨_, rfl, s.skipIf_result beq_iff_eq⟩, ⟨_, rfl, s.skipIf_result bne_iff_ne⟩,
    ⟨_, rfl, s.skipIf_result beq_iff_eq⟩, ⟨_, rfl, s.skipIf_result bne_iff_ne⟩⟩

/-- Settles O23: the key is the low nibble of the register. -/
theorem keySkipResults : Obligations.KeySkipResults := by
  intro s x k hk
  obtain rfl : k = lowNibble (s.reg x) := Fin.ext hk
  exact ⟨⟨_, rfl, s.skipIf_result Iff.rfl⟩, ⟨_, rfl, s.skipIf_result (by rw [Bool.not_eq_true'])⟩⟩

end Sys2Proof.Machine
end

section
/-!
PROOFS. The ALU instructions (spec/43_load_alu.md): `8xy0` to `8xy3`, the flag-first order of the five that write a flag, and the table of
section 4 with VF as an operand. The statements O26 to O30.
-/
namespace Sys2Proof.Machine

/-! ## The words -/

/-- Format XY as a number: the family, X, Y and the low nibble at their places, with no carry from one to the next. -/
theorem wordXY_eq_ofNat (f : BitVec 4) (x y : Reg) (n : BitVec 4) :
    wordXY f x y n = BitVec.ofNat 16 (f.toNat * 4096 + 256 * x.val + 16 * y.val + n.toNat) := by
  rw [← Nat.mul_comm x.val, ← Nat.mul_comm y.val, ← wordXY_toNat, BitVec.ofNat_toNat, BitVec.setWidth_eq]

theorem decode_wordXY {i : Instr} (hwf : i.WellFormed) {f : BitVec 4} {x y : Reg} {n : BitVec 4} (henc : encode i = wordXY f x y n) :
    decode (BitVec.ofNat 16 (f.toNat * 4096 + 256 * x.val + 16 * y.val + n.toNat)) = .ok i := by
  rw [← wordXY_eq_ofNat, ← henc, decode_encode hwf]

/-! ## Assign and logic -/

/-- Settles O26: the four words by the encoder, the frames by the table of written parts, the bits of the result by the operation. -/
theorem assignAndLogicResults : Obligations.AssignAndLogicResults := by
  refine fun s x y => ⟨⟨?ld, ?or, ?and, ?xor⟩, ?assign, ?union, ?meet, ?diff⟩
  case ld => exact decode_wordXY (i := .ldReg x y) (f := 0x8) (n := 0) rfl rfl
  case or => exact decode_wordXY (i := .orReg x y) (f := 0x8) (n := 1) rfl rfl
  case and => exact decode_wordXY (i := .andReg x y) (f := 0x8) (n := 2) rfl rfl
  case xor => exact decode_wordXY (i := .xorReg x y) (f := 0x8) (n := 3) rfl rfl
  case assign =>
    exact ⟨_, rfl, exec_unchanged (.ldReg x y) s _ rfl, s.setReg_advance_regsUnchangedBut x _, rfl, s.reg_setReg_self x _⟩
  case union =>
    refine ⟨_, rfl, exec_unchanged (.orReg x y) s _ rfl, s.setReg_advance_regsUnchangedBut x _, rfl, fun b => ?_⟩
    rw [State.advance_reg, State.reg_setReg_self, BitVec.getLsbD_or]
  case meet =>
    refine ⟨_, rfl, exec_unchanged (.andReg x y) s _ rfl, s.setReg_advance_regsUnchangedBut x _, rfl, fun b => ?_⟩
    rw [State.advance_reg, State.reg_setReg_self, BitVec.getLsbD_and]
  case diff =>
    refine ⟨_, rfl, exec_unchanged (.xorReg x y) s _ rfl, s.setReg_advance_regsUnchangedBut x _, rfl, fun b => ?_⟩
    rw [State.advance_reg, State.reg_setReg_self, BitVec.getLsbD_xor]

/-! ## The flag-first order -/

/-- A register after the write of a flag, as a number: VF is the flag. -/
theorem State.reg_setFlag_toNat (s : State) (f : Bool) (r : Reg) :
    ((s.setFlag f).reg r).toNat = if r = .vf then f.toNat else (s.reg r).toNat := by
  rw [State.reg_setFlag]
  split
  case isTrue => cases f <;> rfl
  case isFalse => rfl

/-- An instruction that writes a flag and then a result has the outcome of spec/43_load_alu.md R161, its operation read on numbers. -/
theorem flagFirstOutcome_of_exec {i : Instr} {x y : Reg} {s : State} {f : Bool} {op : Byte → Byte → Byte} {res : Nat → Nat → Nat}
    (he : exec i s = .next (s.flagThenResult x y f op).advance) (hwritten : written i = [.regs, .pc])
    (hres : ∀ a b, (op a b).toNat = res a.toNat b.toNat) : FlagFirstOutcome i x y s f res := by
  refine ⟨_, he, hwritten ▸ exec_unchanged i s _ he, ?others, rfl, ?flag, ?result⟩
  case others =>
    intro r hr
    simp only [List.mem_cons, List.not_mem_nil, or_false, not_or] at hr
    rw [State.advance_reg, State.reg_flagThenResult, if_neg hr.1, State.reg_setFlag, if_neg hr.2]
  case flag =>
    intro hx
    rw [State.advance_reg, State.reg_flagThenResult, if_neg hx.symm, State.reg_setFlag_toNat, if_pos rfl]
  case result =>
    rw [State.advance_reg, State.reg_flagThenResult, if_pos rfl, hres, State.reg_setFlag_toNat, State.reg_setFlag_toNat]

/-- Settles O27: the flag is the carry, the operation the sum modulo 256. -/
theorem addWithCarryResult : Obligations.AddWithCarryResult :=
  fun _ _ _ => flagFirstOutcome_of_exec rfl rfl BitVec.toNat_add

theorem sub_toNat (a b : Byte) : (a - b).toNat = (a.toNat + 256 - b.toNat) % 256 := by
  have hb := b.isLt
  rw [BitVec.toNat_sub]
  omega

/-- Settles O28: both flags are the not-borrow of their own difference. -/
theorem subtractResults : Obligations.SubtractResults :=
  fun _ _ _ => ⟨flagFirstOutcome_of_exec rfl rfl sub_toNat, flagFirstOutcome_of_exec rfl rfl fun a b => sub_toNat b a⟩

theorem shiftedOutRight_eq (a : Byte) : shiftedOutRight a = decide (a.toNat % 2 = 1) := Nat.testBit_zero _

theorem shiftedOutLeft_eq (a : Byte) : shiftedOutLeft a = decide (128 ≤ a.toNat) := BitVec.msb_eq_decide a

theorem shiftRight_one_toNat (a : Byte) : (a >>> 1).toNat = a.toNat / 2 := by
  rw [BitVec.toNat_ushiftRight, Nat.shiftRight_one]

theorem shiftLeft_one_toNat (a : Byte) : (a <<< 1).toNat = 2 * a.toNat % 256 := by
  rw [BitVec.toNat_shiftLeft, Nat.shiftLeft_eq, Nat.mul_comm]

/-- Settles O29: the flags are the lowest and the highest bit of the old Vx. -/
theorem shiftResults : Obligations.ShiftResults := by
  intro s x y
  rw [← shiftedOutRight_eq, ← shiftedOutLeft_eq]
  exact ⟨flagFirstOutcome_of_exec rfl rfl fun a _ => shiftRight_one_toNat a,
    flagFirstOutcome_of_exec rfl rfl fun a _ => shiftLeft_one_toNat a⟩

/-! ## VF as an operand -/

section Table
variable {i : Instr} {x y : Reg} {s : State} {c : Bool} {res : Nat → Nat → Nat}

theorem FlagFirstOutcome.regAfter_dest (h : FlagFirstOutcome i x y s c res) :
    regAfter i s x = some (res (if x = .vf then c.toNat else (s.reg x).toNat) (if y = .vf then c.toNat else (s.reg y).toNat)) := by
  obtain ⟨t, he, -, -, -, -, hres⟩ := h
  rw [regAfter, he, ← hres]

theorem FlagFirstOutcome.regAfter_vf (h : FlagFirstOutcome i x y s c res) (hx : x ≠ .vf) : regAfter i s .vf = some c.toNat := by
  obtain ⟨t, he, -, -, -, hflag, -⟩ := h
  rw [regAfter, he, ← hflag hx]

end Table

theorem toNat_decide_eq_bit (p : Prop) [Decidable p] : (decide p).toNat = bit p := by
  by_cases h : p <;> simp [bit, h]

theorem bit_le_one (p : Prop) [Decidable p] : bit p ≤ 1 := by
  unfold bit
  split <;> decide

theorem bit_of_true {p : Prop} [Decidable p] (h : p) : bit p = 1 := if_pos h

theorem bit_odd (n : Nat) : bit (n % 2 = 1) = n % 2 := by
  unfold bit
  split <;> omega

theorem bit_half_le {n : Nat} (h : n < 256) : bit (128 ≤ n) = n / 128 := by
  unfold bit
  split <;> omega

theorem two_mul_bit_mod (p : Prop) [Decidable p] : 2 * bit p % 256 = 2 * bit p :=
  Nat.mod_eq_of_lt (by have := bit_le_one p; omega)

theorem bit_div_two (p : Prop) [Decidable p] : bit p / 2 = 0 :=
  Nat.div_eq_of_lt (Nat.lt_succ_of_le (bit_le_one p))

/-- Settles O30: every row is the flag-first outcome of its instruction with the operands put in. -/
theorem registerFAsOperandTable : Obligations.RegisterFAsOperandTable := by
  intro s x y hx hy f a b
  have hadd := addWithCarryResult s
  have hsub := fun x y => (subtractResults s x y).1
  have hsubn := fun x y => (subtractResults s x y).2
  have hshr := fun x y => (shiftResults s x y).1
  have hshl := fun x y => (shiftResults s x y).2
  simp only [(hadd _ _).regAfter_dest, (hadd x _).regAfter_vf hx, (hsub _ _).regAfter_dest, (hsub x _).regAfter_vf hx,
    (hsubn _ _).regAfter_dest, (hsubn x _).regAfter_vf hx, (hshr _ _).regAfter_dest, (hshr x _).regAfter_vf hx,
    (hshl _ _).regAfter_dest, (hshl x _).regAfter_vf hx, if_true, if_neg hx, if_neg hy, toNat_decide_eq_bit, Option.some.injEq]
  have hself : (bit (f ≤ f) + 256 - bit (f ≤ f)) % 256 = 0 := by rw [bit_of_true (le_refl f)]
  have hdouble : (bit (255 < f + f) + bit (255 < f + f)) % 256 = 2 * bit (2 * f > 255) := by
    rw [← Nat.two_mul f, ← Nat.two_mul, two_mul_bit_mod]
  have hhalf : 2 * bit (128 ≤ f) % 256 = 2 * (f / 128) := by rw [two_mul_bit_mod, bit_half_le (s.reg .vf).isLt]
  exact ⟨rfl, rfl, rfl, hdouble, rfl, rfl, rfl, hself, bit_div_two _, bit_div_two _, bit_odd a, rfl, rfl, rfl, rfl, hself, hhalf, hhalf,
    bit_half_le (s.reg x).isLt, rfl⟩

end Sys2Proof.Machine
end

section
/-!
PROOFS. The memory port and family F's stores and loads (spec/20_memory.md, spec/47_misc_fx.md section 3). The statements O15 and O41 to
O44.
-/
namespace Sys2Proof.Machine

/-- Settles O15: a write of one byte is a row of one, and what a read after it gives is the law of the memory port. -/
theorem memoryWriteSetsOneByte : Obligations.MemoryWriteSetsOneByte :=
  fun s addr b => ⟨s.writeBytes_unchangedBut addr [b], s.readMem_writeMem addr b, fun a => (Memory.read_mod s.config s.mem a).symm⟩

/-! ## Fx33 -/

theorem exec_ldB (x : Reg) (s : State) :
    exec (.ldB x) s = .next (s.writeBytes (s.dataAddr 0) (decimalDigits (s.reg x))).advance := rfl

theorem byte_ofNat_toNat {n : Nat} (h : n < 256) : (BitVec.ofNat 8 n).toNat = n := by
  rw [BitVec.toNat_ofNat, Nat.mod_eq_of_lt h]

/-- Settles O41: the three digits are a row of three bytes from I on. -/
theorem storeDecimalResult : Obligations.StoreDecimalResult := by
  intro s x
  have hx := (s.reg x).isLt
  have hdigit := s.readMem_writeBytes_inside (s.dataAddr 0) (decimalDigits (s.reg x)) (by decide : 3 ≤ 4096)
  refine ⟨_, exec_ldB x s, exec_unchanged _ s _ (exec_ldB x s), by simp, ?hundreds, ?tens, ?ones, ?outside⟩
  case hundreds => exact (congrArg BitVec.toNat (hdigit 0 (by decide : 0 < 3))).trans (byte_ofNat_toNat (by omega))
  case tens => exact (congrArg BitVec.toNat (hdigit 1 (by decide : 1 < 3))).trans (byte_ofNat_toNat (by omega))
  case ones => exact (congrArg BitVec.toNat (hdigit 2 (by decide : 2 < 3))).trans (byte_ofNat_toNat (by omega))
  case outside => exact fun a ha => s.readMem_writeBytes_outside (s.dataAddr 0) (decimalDigits (s.reg x)) a ha

/-! ## Fx55 -/

theorem exec_storeRegs (x : Reg) (s : State) :
    exec (.storeRegs x) s = .next ((s.writeBytes (s.dataAddr 0) ((regsUpTo x).map s.reg)).bumpI x).advance := rfl

theorem regsUpTo_map_length (x : Reg) (f : Reg → Byte) : ((regsUpTo x).map f).length = x.val + 1 := by
  rw [List.length_map, regsUpTo_length]

/-- Register `k` is the `k`-th of the row. -/
theorem regsUpTo_map_getElem (x k : Reg) (hk : k ≤ x) (f : Reg → Byte) (h : k.val < ((regsUpTo x).map f).length) :
    ((regsUpTo x).map f)[k.val] = f k := by
  have hreg : (regsUpTo x)[k.val]? = some k := regsUpTo_getElem? x k.val hk
  rw [List.getElem_map, (List.getElem_eq_iff _).2 hreg]

/-- The advance of I, as a number. -/
theorem State.bumpI_toNat (s : State) (x : Reg) : (s.i + BitVec.ofNat 16 (x.val + 1)).toNat = (s.i.toNat + x.val + 1) % 65536 := by
  rw [BitVec.toNat_add, BitVec.toNat_ofNat]
  omega

/-- Settles O42: V0 to Vx are a row of X + 1 bytes from I on. -/
theorem storeRegistersResult : Obligations.StoreRegistersResult := by
  intro s x
  have hlen := regsUpTo_map_length x s.reg
  refine ⟨_, exec_storeRegs x s, exec_unchanged _ s _ (exec_storeRegs x s), by simp, ?index, ?stored, ?outside⟩
  case index => rw [State.advance_i, State.bumpI_i, State.writeBytes_i, State.bumpI_toNat]
  case stored =>
    intro k hk
    have hin : k.val < ((regsUpTo x).map s.reg).length := hlen ▸ Nat.lt_succ_of_le hk
    rw [State.advance_readMem, State.bumpI_readMem, s.readMem_writeBytes_inside _ _ (by omega) k.val hin, regsUpTo_map_getElem x k hk]
  case outside =>
    intro a ha
    rw [State.advance_readMem, State.bumpI_readMem, s.readMem_writeBytes_outside _ _ a (hlen ▸ ha)]

/-! ## Fx65 -/

theorem exec_loadRegs_reg {x : Reg} {s t : State} (e : exec (.loadRegs x) s = .next t) (k : Reg) :
    t.reg k = if k ≤ x then s.readMem (s.dataAddr k.val) else s.reg k := by
  cases e
  rw [State.advance_reg, State.bumpI_reg, (State.foldl_setReg (fun k => s.readMem (s.dataAddr k.val)) (regsUpTo x) s).1]
  simp only [mem_regsUpTo]

/-- Settles O43: V0 to Vx are a row of register writes, the rest of the state an advance of I and of `pc`. -/
theorem loadRegistersResult : Obligations.LoadRegistersResult := by
  intro s x
  obtain ⟨t, e⟩ := exec_next (.loadRegs x) s
  refine ⟨t, e, exec_unchanged _ s t e, ?next, ?index, fun k hk => ?loaded, fun k hk => ?kept⟩
  case next => exact congrArg State.pc (exec_loadRegs_eq e)
  case index => rw [exec_loadRegs_eq e]; exact s.bumpI_toNat x
  case loaded => rw [exec_loadRegs_reg e, if_pos hk]
  case kept => rw [exec_loadRegs_reg e, if_neg hk.not_ge]

/-- Settles O44: the load reads back the bytes the store wrote. -/
theorem storeThenLoadRestoresRegisters : Obligations.StoreThenLoadRestoresRegisters := by
  intro s x
  obtain ⟨t, hstore, -, -, -, hstored, -⟩ := storeRegistersResult s x
  refine ⟨t, hstore, fun w hi hbytes => ?_⟩
  obtain ⟨u, hload, -, -, -, hloaded, -⟩ := loadRegistersResult w x
  refine ⟨u, hload, fun k hk => ?_⟩
  calc u.reg k = w.readMem (w.dataAddr k.val) := hloaded k hk
    _ = w.readMem (s.dataAddr k.val) := by rw [State.dataAddr, hi, ← State.dataAddr]
    _ = t.readMem (s.dataAddr k.val) := hbytes k hk
    _ = s.reg k := hstored k hk

end Sys2Proof.Machine
end

section
/-!
PROOFS. The random byte, the delay timer's read, the index instructions and the key wait (spec/44_index_random.md, spec/47_misc_fx.md
sections 1 and 2), and the host's remaining operations (spec/50_host_interface.md). The statements O32, O35, O37, O39, O40, O47 and O48.
-/
namespace Sys2Proof.Machine

theorem exec_rnd (x : Reg) (nn : Byte) (s : State) :
    exec (.rnd x nn) s = .next (s.drawRandom.setReg x (Config.randomByte s.draws &&& nn)).advance := rfl

/-- Settles O32: the byte written is the free byte under the mask. -/
theorem randomResult : Obligations.RandomResult := by
  intro s x nn
  refine ⟨_, exec_rnd x nn s, exec_unchanged _ s _ (exec_rnd x nn s), s.drawRandom.setReg_advance_regsUnchangedBut x _, rfl, rfl, ?_⟩
  rw [State.advance_reg, State.reg_setReg_self]
  refine ⟨fun b => BitVec.getLsbD_and, ?zero, ?all⟩
  case zero => rintro rfl; exact BitVec.and_zero
  case all => rintro rfl; exact BitVec.and_allOnes

/-! ## The delay timer -/

theorem exec_ldVxDt (x : Reg) (s : State) : exec (.ldVxDt x) s = .next (s.setReg x s.dt).advance := rfl

theorem decode_ldVxDt_word (x : Reg) : decode (BitVec.ofNat 16 (0xF007 + 256 * x.val)) = .ok (.ldVxDt x) :=
  decode_ofNat_of_rowXO (f := 0xF) (low := 0x07) (k := 25) rfl x

theorem State.tickTimer_dt_toNat (s : State) : s.tickTimer.dt.toNat = s.dt.toNat - 1 := by
  obtain ⟨t, htick, -, hdt⟩ := tickDecrementsDelayTimer s
  cases htick
  rw [hdt]
  split <;> omega

/-- A number of ticks counts DT down by that number, to 0 at least. -/
theorem performAll_ticks (n : Nat) (s : State) :
    ∃ t, performAll (List.replicate n .tickTimer) s = .next t ∧ t.dt.toNat = s.dt.toNat - n := by
  induction n generalizing s with
  | zero => exact ⟨s, rfl, rfl⟩
  | succ n ih =>
    obtain ⟨t, hall, hdt⟩ := ih s.tickTimer
    refine ⟨t, hall, ?_⟩
    rw [hdt, s.tickTimer_dt_toNat]
    omega

/-- Settles O35: the row of `Fx07` gives the words, the register write the effect, and the ticks between count DT down. -/
theorem readDelayTimerResult : Obligations.ReadDelayTimerResult := by
  refine ⟨decode_ldVxDt_word, fun s x => ?read, fun s x y n => ?written⟩
  case read =>
    exact ⟨_, exec_ldVxDt x s, exec_unchanged _ s _ (exec_ldVxDt x s), s.setReg_advance_regsUnchangedBut x _,
      s.reg_setReg_self x _, rfl⟩
  case written =>
    obtain ⟨u, hticks, hdt⟩ := performAll_ticks n (s.setDt (s.reg x)).advance
    refine ⟨_, exec_ldDtVx x s, u, hticks, _, exec_ldVxDt y u, ?_⟩
    rw [State.advance_reg, State.reg_setReg_self, hdt, State.advance_dt, State.setDt_dt]

/-! ## The index -/

theorem exec_addI (x : Reg) (s : State) :
    exec (.addI x) s = .next (((s.setFlag (indexOutOfRange s.i (s.reg x))).setI
      (s.i + zextByte ((s.setFlag (indexOutOfRange s.i (s.reg x))).reg x))).advance) := rfl

/-- Settles O39: the flag of the old values, then the sum with the re-read register. -/
theorem addIndexResult : Obligations.AddIndexResult := by
  intro s x
  refine ⟨_, exec_addI x s, exec_unchanged _ s _ (exec_addI x s), ?others, rfl, ?flag, ?index⟩
  case others =>
    intro r hr
    rw [State.advance_reg, State.setI_reg, State.reg_setFlag, if_neg (by simpa using hr)]
  case flag =>
    rw [State.advance_reg, State.setI_reg, State.reg_setFlag_toNat, if_pos rfl, indexOutOfRange]
    exact toNat_decide_eq_bit _
  case index => rw [State.advance_i, State.setI_i, State.advance_reg, State.setI_reg, BitVec.toNat_add, zextByte_toNat]

theorem exec_ldF (x : Reg) (s : State) : exec (.ldF x) s = .next (s.setI (s.glyphAddr (lowNibble (s.reg x)))).advance := rfl

/-- The font lies below 0x200, so a glyph's address does not wrap. -/
theorem State.glyphAddr_toNat (s : State) (g : Fin 16) : (s.glyphAddr g).toNat = s.config.fontBase.val + 5 * g.val := by
  have hbase := s.config.fontBase.isLt
  rw [State.glyphAddr, BitVec.toNat_ofNat, Nat.mod_eq_of_lt (by omega)]

/-- Settles O40: the glyph is that of the low nibble. -/
theorem fontAddressResult : Obligations.FontAddressResult :=
  fun s x => ⟨_, exec_ldF x s, exec_unchanged _ s _ (exec_ldF x s), s.glyphAddr_toNat _, rfl⟩

/-! ## The key wait -/

/-- With some key pressed a key wait goes on. -/
theorem exec_ldVxK_pc_of_key {x : Reg} {s t : State} {k : Fin 16} (hk : s.keyDown k = true) (e : exec (.ldVxK x) s = .next t) :
    t.pc = s.pc + 2 := by
  rcases exec_ldVxK_cases e with ⟨hnone, -⟩ | ⟨-, -, rfl⟩
  · exact absurd hk (by simp [hnone k])
  · rfl

/-- Settles O37: the step and the tick leave `pc`, memory and the keys; after a key write the same instruction runs with a key pressed. -/
theorem keyWaitHoldsUntilKey : Obligations.KeyWaitHoldsUntilKey := by
  rintro s ⟨⟨x, hruns⟩, hnone⟩
  refine ⟨?step, ?tick, fun ks k hk => ?key⟩
  case step => exact ⟨_, hruns.step_ldVxK_of_no_key hnone, s.beginStep_unchanged, rfl, ⟨x, hruns⟩, hnone⟩
  case tick =>
    obtain ⟨b, htick⟩ := s.tickTimer_eq_setDt
    rw [htick]
    exact ⟨⟨x, hruns⟩, hnone⟩
  case key =>
    have hruns' : Runs (s.writeKeys ks) (.ldVxK x) := hruns
    obtain ⟨u, e⟩ := step_next (s.writeKeys ks)
    exact ⟨u, e, exec_ldVxK_pc_of_key (s := (s.writeKeys ks).beginStep) hk (hruns'.step_eq ▸ e)⟩

/-! ## The host's operations -/

/-- Settles O47: both failures are the branches of `load` that answer the state itself. -/
theorem failedLoadChangesNothing : Obligations.FailedLoadChangesNothing :=
  fun _ => ⟨fun _ hlong => ⟨congrArg Host.Outcome.next (if_pos hlong), if_pos hlong⟩, rfl, rfl⟩

/-- Settles O48: each of the two operations writes its own part. -/
theorem keyWriteAndRedrawClear : Obligations.KeyWriteAndRedrawClear :=
  fun s => ⟨fun ks => ⟨_, rfl, s.writeKeys_unchanged ks, s.writeKeys_keyDown ks⟩, _, rfl, s.clearRedraw_unchanged, rfl⟩

end Sys2Proof.Machine
end

section
/-!
PROOFS. The sprite draw (spec/45_draw.md): the rasterizer's closed form read on a state. The statements O33 and O34.
-/
namespace Sys2Proof.Machine

/-- The framebuffer and the collision flag a draw computes. -/
def State.drawn (s : State) (x y : Reg) (n : Nat) : Framebuffer × Bool :=
  drawSprite (s.fb, false) (s.reg x).toNat (s.reg y).toNat (s.readBytes (s.dataAddr 0) n)

theorem exec_drw (x y : Reg) (n : Nat) (s : State) :
    exec (.drw x y n) s = .next ((s.paint (s.drawn x y n).1).setFlag (s.drawn x y n).2).advance := rfl

/-- The bits the rasterizer draws from memory are those of the statement's sprite. -/
theorem spriteBit_readBytes_iff (s : State) (x y : Reg) (n : Nat) (row : Fin 32) (col : Fin 64) :
    spriteBit (s.reg x).toNat (s.reg y).toNat (s.readBytes (s.dataAddr 0) n) row col = true ↔ SpriteAt s x y n row col := by
  simp only [spriteBit_iff, State.readBytes_getElem, State.readBytes_length, exists_prop]
  rfl

section Drawn
variable (s : State) (x y : Reg) {n : Nat} (hn : n < 16)
include hn

theorem State.drawn_xors : Xors (spriteBit (s.reg x).toNat (s.reg y).toNat (s.readBytes (s.dataAddr 0) n)) s.fb (s.drawn x y n) false :=
  drawSprite_xors (s.fb, false) _ _ _ (by rw [State.readBytes_length]; omega)

theorem State.drawn_cell_of_sprite {row : Fin 32} {col : Fin 64} (h : SpriteAt s x y n row col) :
    (s.drawn x y n).1.cell row col = !s.cell row col := by
  rw [(s.drawn_xors x y hn).1, (spriteBit_readBytes_iff s x y n row col).2 h, Bool.xor_true]
  rfl

theorem State.drawn_cell_of_not_sprite {row : Fin 32} {col : Fin 64} (h : ¬SpriteAt s x y n row col) :
    (s.drawn x y n).1.cell row col = s.cell row col := by
  rw [← spriteBit_readBytes_iff, Bool.not_eq_true] at h
  rw [(s.drawn_xors x y hn).1, h, Bool.xor_false]
  rfl

theorem State.drawn_collision_iff :
    (s.drawn x y n).2 = true ↔ ∃ row col, SpriteAt s x y n row col ∧ s.cell row col = true := by
  rw [(s.drawn_xors x y hn).2]
  simp only [spriteBit_readBytes_iff, Bool.false_eq_true, false_or]
  rfl

end Drawn

/-- The registers after a draw: VF holds the collision flag, the rest are kept. -/
theorem exec_drw_reg {x y : Reg} {n : Nat} {s t : State} (e : exec (.drw x y n) s = .next t) (r : Reg) :
    t.reg r = if r = .vf then (if (s.drawn x y n).2 then 1 else 0) else s.reg r := by
  cases e
  exact State.reg_setFlag _ _ r

/-- Settles O33: the cells and the flag by the closed form, the frame by the table of written parts. -/
theorem drawResult : Obligations.DrawResult := by
  intro s x y n hwf
  have hn : n < 16 := of_decide_eq_true hwf
  refine ⟨_, exec_drw x y n s, (exec_unchanged _ s _ (exec_drw x y n s)).mono (by simp [written]), fun r hr => ?others, rfl, rfl,
    fun row col => s.drawn_cell_of_sprite x y hn, fun row col => s.drawn_cell_of_not_sprite x y hn, fun h => ?hit, fun h => ?miss⟩
  case others => rw [exec_drw_reg (exec_drw x y n s), if_neg (by simpa using hr)]
  case hit => rw [exec_drw_reg (exec_drw x y n s), if_pos rfl, if_pos ((s.drawn_collision_iff x y hn).2 h)]
  case miss => rw [exec_drw_reg (exec_drw x y n s), if_pos rfl, if_neg (mt (s.drawn_collision_iff x y hn).1 h)]

/-- The sprite depends on its two coordinate registers, I and memory alone. -/
theorem spriteAt_congr {s t : State} {x y : Reg} (hx : t.reg x = s.reg x) (hy : t.reg y = s.reg y) (hi : t.i = s.i)
    (hmem : ∀ a, t.readMem a = s.readMem a) (n : Nat) (row : Fin 32) (col : Fin 64) :
    SpriteAt t x y n row col ↔ SpriteAt s x y n row col := by
  simp only [SpriteAt, hx, hy, hi, hmem]

/-- Settles O34: after the first draw the sprite is the same, so the second toggles the same cells back, and it meets a set cell exactly
where the first met a clear one. -/
theorem doubleDrawRestoresScreen : Obligations.DoubleDrawRestoresScreen := by
  intro s x y n hwf hx hy
  obtain ⟨t, et, hframe, hregs, -, -, hon, hoff, -, -⟩ := drawResult s x y n hwf
  obtain ⟨u, eu, -, -, -, -, hon', hoff', hhit, hmiss⟩ := drawResult t x y n hwf
  have hsprite := spriteAt_congr (hregs x (by simpa using hx)) (hregs y (by simpa using hy)) (hframe .index (by simp))
    (hframe .mem (by simp)) n
  have hflag : u.reg .vf = 1 ↔ ∃ row col, SpriteAt t x y n row col ∧ t.cell row col = true :=
    ⟨fun h => by_contra fun hno => by simp [hmiss hno] at h, hhit⟩
  refine ⟨t, et, u, eu, fun row col => ?restored, ?collision⟩
  case restored =>
    by_cases h : SpriteAt s x y n row col
    · rw [hon' row col ((hsprite row col).2 h), hon row col h, Bool.not_not]
    · rw [hoff' row col (mt (hsprite row col).1 h), hoff row col h]
  case collision =>
    rw [hflag]
    refine exists₂_congr fun row col => ?_
    rw [hsprite]
    exact and_congr_right fun h => by rw [hon row col h, Bool.not_eq_true']

end Sys2Proof.Machine
end

section
/-!
PROOFS. The return stack as a whole (spec/41_control_flow.md section 1): a pop undoes a push, up to stack entries not in use. The statement
O21.
-/
namespace Sys2Proof.Machine

/-- The last of `n + 1` pops comes after the first `n`. -/
theorem popN_succ (n : Nat) (s : State) :
    popN (n + 1) s = ((popN n s).1 ++ [(popN n s).2.pop.1], (popN n s).2.pop.2) := by
  induction n generalizing s with
  | zero => rfl
  | succ n ih =>
    rw [popN, ih]
    rfl

/-- A pop undoes a push with room, also on a state that differs from the pushed one in entries not in use. -/
theorem pop_of_agree_push {s u : State} {w : Word} (hroom : s.sp.val < 16) (h : AgreeButStale (s.push w) u) :
    u.pop.1 = w ∧ AgreeButStale s u.pop.2 := by
  obtain ⟨hframe, hused⟩ := h
  rcases s.push_cases w with ⟨hfull, -⟩ | ⟨_, hpush⟩
  · omega
  rw [hpush] at hframe hused
  have hsp : u.sp.val = s.sp.val + 1 := congrArg Fin.val (hframe .sp (by simp))
  have hentry : u.stack[s.sp.val] = w := (hused ⟨s.sp.val, hroom⟩ (Nat.lt_succ_self _)).trans (Vector.getElem_set_self _)
  rcases u.pop_cases with ⟨hempty, -⟩ | ⟨_, hpop⟩
  · omega
  rw [hpop]
  refine ⟨by simpa [hsp] using hentry, ?frame, fun k hk => ?used⟩
  case frame =>
    refine UnchangedBut.of_cons (p := .sp) ?_ (Fin.ext (by simp [hsp]))
    exact ((s.setStack_unchanged _ _).trans (hframe.mono (by simp))).trans ((u.setSp_unchanged _).mono (by simp))
  case used => exact (hused k (Nat.lt_succ_of_lt hk)).trans (Vector.getElem_set_ne hroom k.isLt hk.ne')

/-- Settles O21, by induction on the pushed values: the first of them is the last popped. -/
theorem stackIsLastInFirstOut : Obligations.StackIsLastInFirstOut := by
  intro s ws
  induction ws generalizing s with
  | nil => exact fun _ => ⟨rfl, UnchangedBut.refl _ s, fun _ _ => rfl⟩
  | cons w ws ih =>
    intro hfits
    have hroom : s.sp.val < 16 := by rw [List.length_cons] at hfits; omega
    have hsp : (s.push w).sp.val = s.sp.val + 1 := by simp [State.push, hroom]
    obtain ⟨hvalues, hagree⟩ := ih (s.push w) (by rw [List.length_cons] at hfits; omega)
    obtain ⟨hw, hagree'⟩ := pop_of_agree_push hroom hagree
    rw [List.foldl_cons, List.length_cons, popN_succ, List.reverse_cons, hvalues, hw]
    exact ⟨rfl, hagree'⟩

end Sys2Proof.Machine
end

section
/-!
PROOFS. Who changes what (spec/10_state.md, spec/50_host_interface.md): a part a step changed is in the row of the instruction the step ran,
so the rules for the keys, DT, the screen, memory, the stack, VF and I are read off the table of written parts. The statements O49 to O56.
-/
namespace Sys2Proof.Machine

/-! ## The rows of the table in which a part stands -/

theorem key_not_mem_written (i : Instr) : Part.key ∉ written i := by
  cases i <;> simp [written]

theorem dt_mem_written {i : Instr} (h : Part.dt ∈ written i) : ∃ x, i = .ldDtVx x := by
  cases i <;> simp [written] at h ⊢

theorem fb_mem_written {i : Instr} (h : Part.fb ∈ written i) : i = .cls ∨ ∃ x y n, i = .drw x y n := by
  cases i <;> simp [written] at h ⊢

theorem redraw_mem_written {i : Instr} (h : Part.redraw ∈ written i) : i = .cls ∨ ∃ x y n, i = .drw x y n := by
  cases i <;> simp [written] at h ⊢

theorem mem_mem_written {i : Instr} (h : Part.mem ∈ written i) : (∃ x, i = .ldB x) ∨ ∃ x, i = .storeRegs x := by
  cases i <;> simp [written] at h ⊢

theorem index_mem_written {i : Instr} (h : Part.index ∈ written i) : writesIndex i = true := by
  cases i <;> simp [written] at h <;> rfl

/-! ## Keys and DT, over the host's operations -/

/-- Settles O49: a step has the keys in no row, and of the host's other operations a load writes memory and a tick DT. -/
theorem keysChangedOnlyByHost : Obligations.KeysChangedOnlyByHost := by
  rintro o s t e ⟨k, hk⟩
  cases o with
  | reset => exact .inl rfl
  | writeKeys ks => exact .inr ⟨ks, rfl⟩
  | step =>
    obtain ⟨i, -, -, hmem⟩ := step_changed_part s t .key (by decide) (by decide) e fun h => hk (h k)
    exact absurd hmem (key_not_mem_written i)
  | load source =>
    obtain ⟨bs, hload⟩ := s.load_eq_writeBytes source
    cases (congrArg Host.Outcome.next hload).symm.trans e
    exact absurd (s.writeBytes_keyDown _ bs k) hk
  | tickTimer =>
    obtain ⟨b, htick⟩ := s.tickTimer_eq_setDt
    cases (congrArg Host.Outcome.next htick).symm.trans e
    exact absurd rfl hk
  | clearRedraw => cases e; exact absurd rfl hk

/-- Settles O50: a step that changes DT runs `Fx15`; of the host's operations a tick counts DT down, a reset clears it, and the others
leave it. -/
theorem delayTimerGrowsOnlyByWrite : Obligations.DelayTimerGrowsOnlyByWrite := by
  intro o s t e
  cases o with
  | step =>
    by_cases hdt : t.dt = s.dt
    · exact .inr ⟨by rw [hdt], fun _ => hdt⟩
    · obtain ⟨i, hruns, he, hmem⟩ := step_changed_part s t .dt (by decide) (by decide) e hdt
      obtain ⟨x, rfl⟩ := dt_mem_written hmem
      cases he
      exact .inl ⟨rfl, x, hruns, rfl⟩
  | reset => cases e; exact .inr ⟨Nat.zero_le _, nofun⟩
  | tickTimer => cases e; exact .inr ⟨s.tickTimer_dt_toNat ▸ Nat.sub_le _ _, nofun⟩
  | load source =>
    obtain ⟨bs, hload⟩ := s.load_eq_writeBytes source
    cases (congrArg Host.Outcome.next hload).symm.trans e
    exact .inr ⟨by rw [State.writeBytes_dt], nofun⟩
  | writeKeys ks => cases e; exact .inr ⟨le_refl _, nofun⟩
  | clearRedraw => cases e; exact .inr ⟨le_refl _, nofun⟩

/-! ## The screen -/

/-- A step that runs `00E0` or `Dxyn` sets the redraw flag. -/
theorem Runs.redraw_set {s t : State} {i : Instr} (hruns : Runs s i) (hi : i = .cls ∨ ∃ x y n, i = .drw x y n) (e : step s = .next t) :
    t.redraw = true := by
  rw [hruns.step_eq] at e
  rcases hi with rfl | ⟨x, y, n, rfl⟩ <;> cases e <;> rfl

/-- Settles O51: a step that changes the flag runs one of the two, and both set it. -/
theorem redrawSetOnlyByClearAndDraw : Obligations.RedrawSetOnlyByClearAndDraw := by
  intro s t e
  have hchanged : t.redraw ≠ s.redraw → ∃ i, Runs s i ∧ (i = .cls ∨ ∃ x y n, i = .drw x y n) := fun h => by
    obtain ⟨i, hruns, -, hmem⟩ := step_changed_part s t .redraw (by decide) (by decide) e h
    exact ⟨i, hruns, redraw_mem_written hmem⟩
  constructor
  · intro ht
    by_cases hs : s.redraw = true
    · exact .inl hs
    · obtain ⟨i, hruns, rfl | ⟨x, y, n, rfl⟩⟩ := hchanged fun h => hs (h ▸ ht)
      · exact .inr (.inl hruns)
      · exact .inr (.inr ⟨x, y, n, hruns⟩)
  · rintro (hs | hruns | ⟨x, y, n, hruns⟩)
    · by_contra ht
      obtain ⟨i, hruns, hi⟩ := hchanged fun h => ht (h.trans hs)
      exact ht (hruns.redraw_set hi e)
    · exact hruns.redraw_set (.inl rfl) e
    · exact hruns.redraw_set (.inr ⟨x, y, n, rfl⟩) e

/-- Settles O52, by the rows of the table that hold the framebuffer. -/
theorem cellsChangedOnlyByClearAndDraw : Obligations.CellsChangedOnlyByClearAndDraw := by
  rintro s t e ⟨row, col, hcell⟩
  obtain ⟨i, hruns, -, hmem⟩ := step_changed_part s t .fb (by decide) (by decide) e fun h => hcell (h row col)
  rcases fb_mem_written hmem with rfl | ⟨x, y, n, rfl⟩
  · exact .inl hruns
  · exact .inr ⟨x, y, n, hruns⟩

/-! ## Memory -/

/-- Settles O53: the two stores leave every address outside their bytes. -/
theorem memoryWrittenOnlyByStores : Obligations.MemoryWrittenOnlyByStores := by
  intro s t a e hne
  obtain ⟨i, hruns, he, hmem⟩ := step_changed_part s t .mem (by decide) (by decide) e fun h => hne (h a)
  rcases mem_mem_written hmem with ⟨x, rfl⟩ | ⟨x, rfl⟩
  · obtain ⟨u, eu, -, -, -, -, -, houtside⟩ := storeDecimalResult s.beginStep x
    cases eu.symm.trans he
    exact .inl ⟨x, hruns, fun hout => hne (houtside a hout)⟩
  · obtain ⟨u, eu, -, -, -, -, houtside⟩ := storeRegistersResult s.beginStep x
    cases eu.symm.trans he
    exact .inr ⟨x, hruns, fun hout => hne (houtside a hout)⟩

/-! ## The stack -/

/-- What a step does to the stack: a call with room pushes, a return from a used entry drops it, and nothing else touches it. -/
theorem step_stack_cases {s t : State} (e : step s = .next t) :
    (∃ nnn, Runs s (.call nnn) ∧ ∃ h : s.sp.val < 16, t.sp.val = s.sp.val + 1 ∧ t.stack = s.stack.set s.sp.val (s.pc + 2) h) ∨
      (Runs s .ret ∧ t.sp.val + 1 = s.sp.val ∧ t.stack = s.stack) ∨ (t.sp = s.sp ∧ t.stack = s.stack) := by
  rcases step_runs_or_reports s t e with ⟨i, hruns, he⟩ | ⟨-, hframe⟩
  · rcases exec_stack_cases he with ⟨nnn, rfl, hpush⟩ | ⟨rfl, hpop⟩ | hkept
    · exact .inl ⟨nnn, hruns, hpush⟩
    · exact .inr (.inl ⟨hruns, hpop⟩)
    · exact .inr (.inr hkept)
  · exact .inr (.inr ⟨hframe .sp (by simp), Vector.ext fun k hk => hframe .stack (by simp) ⟨k, hk⟩⟩)

/-- Settles O54, by the three cases of the stack. -/
theorem stackChangedOnlyByCallAndReturn : Obligations.StackChangedOnlyByCallAndReturn := by
  intro s t e
  rcases step_stack_cases e with ⟨nnn, hruns, hroom, hsp, hst⟩ | ⟨hruns, hsp, hst⟩ | ⟨hsp, hst⟩
  · refine ⟨fun k hk => ⟨⟨nnn, hruns⟩, ?_⟩, fun _ => .inl ⟨⟨nnn, hruns⟩, hsp⟩⟩
    by_contra hne
    exact hk (by rw [hst]; exact Vector.getElem_set_ne hroom k.isLt (Ne.symm hne))
  · exact ⟨fun k hk => absurd (by rw [hst]) hk, fun _ => .inr ⟨hruns, hsp⟩⟩
  · exact ⟨fun k hk => absurd (by rw [hst]) hk, fun h => absurd hsp h⟩

/-! ## VF and I -/

/-- An instruction that is not listed as writing VF leaves it: it writes no register, or one that is not VF, or registers below VF. -/
theorem exec_vf_of_not_writesVf {i : Instr} {s t : State} (h : writesVf i = false) (e : exec i s = .next t) : t.reg .vf = s.reg .vf := by
  by_cases hmem : Part.regs ∈ written i
  swap
  · exact exec_unchanged i s t e .regs hmem .vf
  cases i
  case ldVxK x =>
    have hx : Reg.vf ≠ x := (beq_eq_false_iff_ne.1 h).symm
    rcases exec_ldVxK_cases e with ⟨-, rfl⟩ | ⟨k, -, rfl⟩
    · rfl
    · exact State.reg_setReg_ne _ _ hx
  case loadRegs x =>
    have hx : Reg.vf ≠ x := (beq_eq_false_iff_ne.1 h).symm
    rw [exec_loadRegs_reg e, if_neg fun hle => hx (le_antisymm hle (Fin.le_last x))]
  case ldImm | addImm | ldReg | orReg | andReg | xorReg | rnd | ldVxDt =>
    cases e
    exact State.reg_setReg_ne _ _ (beq_eq_false_iff_ne.1 h).symm
  all_goals simp [written, writesVf] at h hmem

/-- Settles O55: a changed VF is a changed register, so the step ran an instruction, and it is a listed one. -/
theorem flagRegisterWrittenOnlyByListed : Obligations.FlagRegisterWrittenOnlyByListed := by
  intro s t e hne
  obtain ⟨i, hruns, he, -⟩ := step_changed_part s t .regs (by decide) (by decide) e fun h => hne (h .vf)
  refine ⟨i, hruns, ?_⟩
  by_contra hnot
  exact hne (exec_vf_of_not_writesVf (s := s.beginStep) (Bool.not_eq_true _ ▸ hnot) he)

/-- Settles O56, by the rows of the table that hold I. -/
theorem indexWrittenOnlyByListed : Obligations.IndexWrittenOnlyByListed := by
  intro s t e hne
  obtain ⟨i, hruns, -, hmem⟩ := step_changed_part s t .index (by decide) (by decide) e hne
  exact ⟨i, hruns, index_mem_written hmem⟩

end Sys2Proof.Machine
end

section
/-!
PROOFS. Two states in lockstep: an operation that reads no part in which two states may differ leaves them equal outside these parts. Each
shared operation keeps such an agreement, so every instruction and every step does, as long as the parts are ones it does not read: of the
stack, the framebuffer and the redraw flag, a return reads the popped entry and a draw the framebuffer, and nothing else reads any.
-/
namespace Sys2Proof.Machine

/-! ## The shared operations -/

section Operations
variable {ps : List Part} {s t : State} (h : UnchangedBut ps s t)
include h

/-- It is enough to look at each part on its own. -/
theorem UnchangedBut.map {s' t' : State} (hpart : ∀ p, samePart s t p → samePart s' t' p) : UnchangedBut ps s' t' :=
  fun p hp => hpart p (h p hp)

theorem UnchangedBut.setReg (x : Reg) {b c : Byte} (hb : c = b) : UnchangedBut ps (s.setReg x b) (t.setReg x c) := by
  subst hb
  exact h.map fun p hpart => by cases p <;> simp_all [samePart, State.reg_setReg]

theorem UnchangedBut.setFlag {c d : Bool} (hc : d = c) : UnchangedBut ps (s.setFlag c) (t.setFlag d) := h.setReg .vf (by rw [hc])

theorem UnchangedBut.setI {w z : Word} (hw : z = w) : UnchangedBut ps (s.setI w) (t.setI z) := by
  subst hw
  exact h.map fun p hpart => by cases p <;> simp_all [samePart]

theorem UnchangedBut.setPc {w z : Word} (hw : z = w) : UnchangedBut ps (s.setPc w) (t.setPc z) := by
  subst hw
  exact h.map fun p hpart => by cases p <;> simp_all [samePart]

theorem UnchangedBut.setDt {b c : Byte} (hb : c = b) : UnchangedBut ps (s.setDt b) (t.setDt c) := by
  subst hb
  exact h.map fun p hpart => by cases p <;> simp_all [samePart]

theorem UnchangedBut.paint {f g : Framebuffer} (hf : g = f) : UnchangedBut ps (s.paint f) (t.paint g) := by
  subst hf
  exact h.map fun p hpart => by cases p <;> simp_all [samePart]

theorem UnchangedBut.raise (c : Condition) : UnchangedBut ps (s.raise c) (t.raise c) :=
  h.map fun p hpart => by cases p <;> simp_all [samePart]

theorem UnchangedBut.beginStep : UnchangedBut ps s.beginStep t.beginStep :=
  h.map fun p hpart => by cases p <;> simp_all [samePart]

theorem UnchangedBut.drawRandom : UnchangedBut ps s.drawRandom t.drawRandom :=
  h.map fun p hpart => by cases p <;> simp_all [samePart]

theorem UnchangedBut.writeMem (a : Nat) (b : Byte) : UnchangedBut ps (s.writeMem a b) (t.writeMem a b) := by
  refine h.map fun p hpart => ?_
  cases p
  case mem => exact fun d => by rw [State.readMem_writeMem, State.readMem_writeMem, hpart d]
  all_goals simp_all [samePart]

theorem UnchangedBut.setStack {n m : Fin 17} (hn : m = n) {k j : Nat} (hj : j = k) (hk : k < 16) (w : Word) :
    UnchangedBut ps { s with stack := s.stack.set k w hk, sp := n } { t with stack := t.stack.set j w (hj ▸ hk), sp := m } := by
  subst hn hj
  refine h.map fun p hpart => ?_
  cases p
  case stack => exact fun i => by simp only [Fin.getElem_fin, Vector.getElem_set]; split <;> [rfl; exact hpart i]
  all_goals simp_all [samePart, State.reg, State.readMem, State.cell, State.keyDown]

theorem UnchangedBut.setSp {n m : Fin 17} (hn : m = n) : UnchangedBut ps { s with sp := n } { t with sp := m } := by
  subst hn
  exact h.map fun p hpart => by cases p <;> simp_all [samePart, State.reg, State.readMem, State.cell, State.keyDown]

theorem UnchangedBut.writeBytes (a : Nat) (bs : List Byte) : UnchangedBut ps (s.writeBytes a bs) (t.writeBytes a bs) := by
  induction bs generalizing s t a with
  | nil => exact h
  | cons b bs ih => exact ih (h.writeMem a b) (a + 1)

theorem UnchangedBut.foldl_setReg {f g : Reg → Byte} (hf : g = f) (ks : List Reg) :
    UnchangedBut ps (ks.foldl (fun u k => u.setReg k (f k)) s) (ks.foldl (fun u k => u.setReg k (g k)) t) := by
  subst hf
  induction ks generalizing s t with
  | nil => exact h
  | cons k ks ih => exact ih (h.setReg k rfl)

theorem UnchangedBut.push (hsp : t.sp = s.sp) {w z : Word} (hw : z = w) : UnchangedBut ps (s.push w) (t.push z) := by
  subst hw
  have hval : t.sp.val = s.sp.val := congrArg Fin.val hsp
  rcases s.push_cases z with ⟨hs, hpush⟩ | ⟨hs, hpush⟩ <;> rcases t.push_cases z with ⟨ht, hpush'⟩ | ⟨ht, hpush'⟩ <;>
    rw [hpush, hpush']
  · exact h.raise _
  · omega
  · omega
  · exact h.setStack (Fin.ext (by simp [hval])) hval hs z

theorem UnchangedBut.pop (hsp : t.sp = s.sp) : UnchangedBut ps s.pop.2 t.pop.2 := by
  have hval : t.sp.val = s.sp.val := congrArg Fin.val hsp
  rcases s.pop_cases with ⟨hs, hpop⟩ | ⟨hs, hpop⟩ <;> rcases t.pop_cases with ⟨ht, hpop'⟩ | ⟨ht, hpop'⟩ <;> rw [hpop, hpop']
  · exact h.raise _
  · omega
  · omega
  · exact h.setSp (Fin.ext (by simp [hval]))

end Operations

/-! ## Instructions -/

/-- The parts that no instruction reads but a return, the stack, and a draw, the framebuffer. -/
def Unread (ps : List Part) : Prop := ∀ p ∈ ps, p = .stack ∨ p = .fb ∨ p = .redraw

/-- The popped entry does not depend on the status. -/
theorem State.beginStep_pop_fst (s : State) : s.beginStep.pop.1 = s.pop.1 := by
  by_cases hempty : s.sp.val = 0 <;> simp [State.pop, hempty]

section Lockstep
variable {ps : List Part} {s t : State} (hps : Unread ps) (h : UnchangedBut ps s t)
include hps h

/-- What every instruction may read is the same in both states. -/
theorem UnchangedBut.same {p : Part} (hp : p ≠ .stack ∧ p ≠ .fb ∧ p ≠ .redraw) : samePart s t p :=
  h p fun hmem => by rcases hps p hmem with rfl | rfl | rfl <;> simp at hp

theorem UnchangedBut.same_reg : t.reg = s.reg := funext (h.same hps (p := .regs) (by decide))
theorem UnchangedBut.same_readMem : t.readMem = s.readMem := funext (h.same hps (p := .mem) (by decide))
theorem UnchangedBut.same_keyDown : t.keyDown = s.keyDown := funext (h.same hps (p := .key) (by decide))
theorem UnchangedBut.same_i : t.i = s.i := h.same hps (p := .index) (by decide)
theorem UnchangedBut.same_pc : t.pc = s.pc := h.same hps (p := .pc) (by decide)
theorem UnchangedBut.same_sp : t.sp = s.sp := h.same hps (p := .sp) (by decide)
theorem UnchangedBut.same_dt : t.dt = s.dt := h.same hps (p := .dt) (by decide)
theorem UnchangedBut.same_draws : t.draws = s.draws := h.same hps (p := .draws) (by decide)
theorem UnchangedBut.same_config : t.config = s.config := h.same hps (p := .config) (by decide)

theorem UnchangedBut.advance : UnchangedBut ps s.advance t.advance := h.setPc (by rw [h.same_pc hps])

theorem UnchangedBut.skipIf {c d : Bool} (hc : d = c) : UnchangedBut ps (s.skipIf c) (t.skipIf d) :=
  h.setPc (by rw [h.same_pc hps, hc])

theorem UnchangedBut.bumpI (x : Reg) : UnchangedBut ps (s.bumpI x) (t.bumpI x) := h.setI (by rw [h.same_i hps])

theorem UnchangedBut.flagThenResult (x y : Reg) {c d : Bool} (hc : d = c) (op : Byte → Byte → Byte) :
    UnchangedBut ps (s.flagThenResult x y c op) (t.flagThenResult x y d op) :=
  (h.setFlag hc).setReg x (by rw [(h.setFlag hc).same_reg hps])

theorem UnchangedBut.same_firstKey : t.firstKey = s.firstKey := by rw [State.firstKey, h.same_keyDown hps, ← State.firstKey]

theorem UnchangedBut.same_drawn (hfb : t.fb = s.fb) (x y : Reg) (n : Nat) : t.drawn x y n = s.drawn x y n := by
  simp only [State.drawn, State.readBytes, State.dataAddr, hfb, h.same_reg hps, h.same_readMem hps, h.same_i hps]

theorem UnchangedBut.same_fetch : t.fetch = s.fetch := by
  simp only [State.fetch, State.readWord, h.same_pc hps, h.same_readMem hps]

theorem UnchangedBut.runs {i : Instr} (hruns : Runs s i) : Runs t i :=
  ⟨h.same_pc hps ▸ hruns.1, h.same_fetch hps ▸ hruns.2⟩

/-- An instruction run on both states, a return with the same popped entry and a draw on the same framebuffer, keeps the agreement. -/
theorem exec_lockstep {i : Instr} {s' t' : State} (hret : i = .ret → t.pop.1 = s.pop.1)
    (hdrw : (∃ x y n, i = .drw x y n) → t.fb = s.fb)
    (e : exec i s = .next s') (e' : exec i t = .next t') : UnchangedBut ps s' t' := by
  have hreg := h.same_reg hps
  have hi := h.same_i hps
  cases i
  case cls => cases e; cases e'; exact (h.paint rfl).advance hps
  case ret => cases e; cases e'; exact (h.pop (h.same_sp hps)).setPc (hret rfl)
  case jp => cases e; cases e'; exact h.setPc rfl
  case call => cases e; cases e'; exact (h.push (h.same_sp hps) (by rw [h.same_pc hps])).setPc rfl
  case jpV0 => cases e; cases e'; exact h.setPc (by rw [hreg])
  case seImm | sneImm | seReg | sneReg => cases e; cases e'; exact h.skipIf hps (by rw [hreg])
  case skp | sknp => cases e; cases e'; exact h.skipIf hps (by rw [hreg, h.same_keyDown hps])
  case ldImm => cases e; cases e'; exact (h.setReg _ rfl).advance hps
  case addImm | ldReg | orReg | andReg | xorReg => cases e; cases e'; exact (h.setReg _ (by rw [hreg])).advance hps
  case addReg | sub | shr | subn | shl => cases e; cases e'; exact (h.flagThenResult hps _ _ (by rw [hreg]) _).advance hps
  case ldI => cases e; cases e'; exact (h.setI rfl).advance hps
  case rnd => cases e; cases e'; exact (h.drawRandom.setReg _ (by rw [State.nextRandom, h.same_draws hps]; rfl)).advance hps
  case drw x y n =>
    have hdrawn := h.same_drawn hps (hdrw ⟨x, y, n, rfl⟩) x y n
    rw [exec_drw] at e e'
    cases e; cases e'
    exact ((h.paint (by rw [hdrawn])).setFlag (by rw [hdrawn])).advance hps
  case ldVxDt => cases e; cases e'; exact (h.setReg _ (h.same_dt hps)).advance hps
  case ldVxK x =>
    have hkey := h.same_firstKey hps
    cases hk : s.firstKey with
    | none =>
      cases (exec_ldVxK_of_no_key (s.firstKey_none.1 hk) x).symm.trans e
      cases (exec_ldVxK_of_no_key (t.firstKey_none.1 (hkey.trans hk)) x).symm.trans e'
      exact h
    | some k =>
      cases (exec_ldVxK_of_firstKey hk x).symm.trans e
      cases (exec_ldVxK_of_firstKey (hkey.trans hk) x).symm.trans e'
      exact (h.setReg x rfl).advance hps
  case ldDtVx => cases e; cases e'; exact (h.setDt (by rw [hreg])).advance hps
  case ldStVx => cases e; cases e'; exact h.advance hps
  case addI x =>
    have hflag := h.setFlag (show indexOutOfRange t.i (t.reg x) = indexOutOfRange s.i (s.reg x) by rw [hi, hreg])
    rw [exec_addI] at e e'
    cases e; cases e'
    exact (hflag.setI (by rw [hflag.same_reg hps, hi])).advance hps
  case ldF => cases e; cases e'; exact (h.setI (by rw [State.glyphAddr, h.same_config hps, hreg]; rfl)).advance hps
  case ldB x =>
    rw [exec_ldB] at e e'
    cases e; cases e'
    rw [State.dataAddr, State.dataAddr, hi, hreg]
    exact (h.writeBytes _ _).advance hps
  case storeRegs x =>
    rw [exec_storeRegs] at e e'
    cases e; cases e'
    rw [State.dataAddr, State.dataAddr, hi, hreg]
    exact ((h.writeBytes _ _).bumpI hps x).advance hps
  case loadRegs x =>
    cases e; cases e'
    refine ((h.foldl_setReg ?_ (regsUpTo x)).bumpI hps x).advance hps
    simp only [State.dataAddr, h.same_readMem hps, hi]

/-- A step of both states keeps the agreement. -/
theorem step_lockstep {s' t' : State} (hret : Runs s .ret → t.pop.1 = s.pop.1) (hdrw : (∃ x y n, Runs s (.drw x y n)) → t.fb = s.fb)
    (e : step s = .next s') (e' : step t = .next t') : UnchangedBut ps s' t' := by
  have hpc := h.same_pc hps
  have hfetch := h.same_fetch hps
  rcases step_cases s with ⟨hout, hstep⟩ | ⟨hin, i, hdec, hstep⟩ | ⟨hin, r, hdec, hstep⟩
  · cases hstep.symm.trans e
    cases (step_of_outOfBounds (hpc ▸ hout)).symm.trans e'
    exact h.beginStep.raise _
  · have hruns : Runs s i := ⟨hin, hdec⟩
    refine exec_lockstep hps h.beginStep (fun hi => ?popped) (fun ⟨x, y, n, hi⟩ => hdrw ⟨x, y, n, hi ▸ hruns⟩)
      (hstep.symm.trans e) ((h.runs hps hruns).step_eq.symm.trans e')
    case popped => rw [State.beginStep_pop_fst, State.beginStep_pop_fst, hret (hi ▸ hruns)]
  · have hinvalid : FetchesInvalid t := ⟨hpc ▸ hin, by rw [hfetch, hdec, ((decode_error_iff _ _).1 hdec).1]⟩
    cases hstep.symm.trans e
    cases hinvalid.step_eq.symm.trans e'
    exact (h.beginStep.raise _).advance hps

end Lockstep

end Sys2Proof.Machine
end

section
/-!
PROOFS. What no instruction can observe (spec/10_state.md sections 3, 5 and 6): stack entries not in use, and the screen but for the VF of a
draw. The statements O58 and O59.
-/
namespace Sys2Proof.Machine

theorem after_of_step {s t : State} (e : step s = .next t) : after s = t := by
  rw [after, e]

/-- The popped entry is one in use, so it is the same where the entries in use are. -/
theorem pop_fst_of_agree {s t : State} (hsp : t.sp = s.sp) (hconfig : t.config = s.config)
    (hused : ∀ k : Fin 16, k.val < s.sp.val → t.stack[k] = s.stack[k]) : t.pop.1 = s.pop.1 := by
  rcases s.pop_cases with ⟨hs, hpop⟩ | ⟨hs, hpop⟩ <;> rcases t.pop_cases with ⟨ht, hpop'⟩ | ⟨ht, hpop'⟩ <;> rw [hpop, hpop']
  · exact congrArg Config.stackPopDefault hconfig
  · exact absurd (hsp ▸ hs) ht
  · exact absurd (hsp ▸ ht) hs
  · have hentry := hused ⟨s.sp.val - 1, by omega⟩ (show s.sp.val - 1 < s.sp.val by omega)
    simpa [hsp] using hentry

/-- After a step the entries in use are those that were, or these and the one a call pushed. -/
theorem step_used_cases {s t : State} (e : step s = .next t) :
    (t.stack = s.stack ∧ t.sp.val ≤ s.sp.val) ∨
      ∃ h : s.sp.val < 16, t.stack = s.stack.set s.sp.val (s.pc + 2) h ∧ t.sp.val = s.sp.val + 1 := by
  rcases step_stack_cases e with ⟨-, -, hroom, hsp, hst⟩ | ⟨-, hsp, hst⟩ | ⟨hsp, hst⟩
  · exact .inr ⟨hroom, hst, hsp⟩
  · exact .inl ⟨hst, by omega⟩
  · exact .inl ⟨hst, by rw [hsp]⟩

/-- Settles O58: the two steps agree outside the stack; both keep their entries in use, or both push the same entry at the same place. -/
theorem staleStackIsNotObservable : Obligations.StaleStackIsNotObservable := by
  rintro s t ⟨hframe, hused⟩
  have hps : Unread [.stack] := by simp [Unread]
  have hsp := hframe.same_sp hps
  have hpc := hframe.same_pc hps
  have hfb : t.fb = s.fb := Vector.ext fun r hr => Vector.ext fun c hc => hframe .fb (by simp) ⟨r, hr⟩ ⟨c, hc⟩
  obtain ⟨s', e⟩ := step_next s
  obtain ⟨t', e'⟩ := step_next t
  rw [after_of_step e, after_of_step e']
  have hframe' := step_lockstep hps hframe (fun _ => pop_fst_of_agree hsp (hframe.same_config hps) hused) (fun _ => hfb) e e'
  refine ⟨hframe', fun k hk => ?_⟩
  have hspt : t.sp.val = s.sp.val := congrArg Fin.val hsp
  have hspt' : t'.sp.val = s'.sp.val := congrArg Fin.val (hframe'.same_sp hps)
  rcases step_used_cases e with ⟨hst, hle⟩ | ⟨hroom, hst, hpush⟩ <;>
    rcases step_used_cases e' with ⟨hst', hle'⟩ | ⟨hroom', hst', hpush'⟩
  · rw [hst, hst']
    exact hused k (by omega)
  · omega
  · omega
  · simp only [hst, hst', Fin.getElem_fin, Vector.getElem_set, hspt, hpc]
    split
    · rfl
    · exact hused k (by omega)

/-- A draw on two states that differ in the screen leaves them different in the screen and VF at most: it writes no other register and
advances both program counters. -/
theorem exec_drw_lockstep {s t s' t' : State} {x y : Reg} {n : Nat} (h : UnchangedBut [.fb, .redraw] s t)
    (e : exec (.drw x y n) s = .next s') (e' : exec (.drw x y n) t = .next t') :
    UnchangedBut [.fb, .redraw, .regs] s' t' ∧ RegsUnchangedBut [.vf] s' t' := by
  have hframe := h.of_frames (exec_unchanged _ _ _ e) (exec_unchanged _ _ _ e')
  have hpc : t'.pc = s'.pc := by
    cases e; cases e'
    exact congrArg (· + 2) (h .pc (by simp))
  refine ⟨(hframe.mono (qs := [.pc, .fb, .redraw, .regs]) (by simp [written])).of_cons hpc, fun r hr => ?_⟩
  have hvf : r ≠ .vf := by simpa using hr
  rw [exec_drw_reg e, exec_drw_reg e', if_neg hvf, if_neg hvf]
  exact h .regs (by simp) r

/-- Settles O59: outside a draw the two steps stay in lockstep, and a draw is on the list. -/
theorem screenIsNotObservableExceptCollision : Obligations.ScreenIsNotObservableExceptCollision := by
  intro s t hframe
  have hps : Unread [.fb, .redraw] := by simp [Unread]
  obtain ⟨s', e⟩ := step_next s
  obtain ⟨t', e'⟩ := step_next t
  rw [after_of_step e, after_of_step e']
  by_cases hdrw : ∃ x y n, Runs s (.drw x y n)
  · obtain ⟨x, y, n, hruns⟩ := hdrw
    obtain ⟨hframe', hregs⟩ := exec_drw_lockstep hframe.beginStep (hruns.step_eq.symm.trans e)
      ((hframe.runs hps hruns).step_eq.symm.trans e')
    exact ⟨hframe', hregs, fun _ => ⟨x, y, n, hruns⟩⟩
  · have hpop : t.pop.1 = s.pop.1 :=
      pop_fst_of_agree (hframe.same_sp hps) (hframe.same_config hps) fun k _ => hframe .stack (by simp) k
    have hframe' := step_lockstep hps hframe (fun _ => hpop) (fun h => absurd h hdrw) e e'
    have hreg := hframe'.same_reg hps
    exact ⟨hframe'.mono (by simp), fun r _ => congrFun hreg r, fun h => absurd (congrFun hreg _) h⟩

end Sys2Proof.Machine
end
